-- ==== Sys2Proof/Word.lean ====
section
/-! DEFINITION. The words of the MH3 CORE: u64 registers, u32 engine words and bytes (00_scope.md R8, R9).
All arithmetic is unsigned and wraps at the width of the type, which is what `BitVec` arithmetic does. -/

namespace Sys2Proof

/-- A u64: a register of the window, a 128-bit-engine accumulator, a command word. -/
abbrev Word := BitVec 64

/-- A u32: a word of the 32-bit engine. -/
abbrev Word32 := BitVec 32

/-- A byte of a message. -/
abbrev Byte := BitVec 8

end Sys2Proof
end

