-- ==== Sys2Proof/Syntax.lean ====
section
/-! DEFINITION. The command set of the MH3 CORE: one constructor per row of spec/opcode_table.json
(30_encoding.md R85). -/

namespace Sys2Proof

/-- A command. -/
inductive Instr where
  /-- NOP, OP 0x00 (43_control.md R180). -/
  | nop
  /-- INIT32, OP 0x01 (40_engine32.md R107). -/
  | init32
  /-- INIT128, OP 0x02 (41_engine128.md R140). -/
  | init128
  /-- INIT64, OP 0x03 (41_engine128.md R141). -/
  | init64
  /-- WRITE n, OP 0x04, with the 5-bit field N (42_streaming.md R163, 30_encoding.md R83). -/
  | write (n : BitVec 5)
  /-- SUM32, OP 0x05 (40_engine32.md R108). -/
  | sum32
  /-- SUM128, OP 0x06 (41_engine128.md R142). -/
  | sum128
  /-- CLRERR, OP 0x07 (43_control.md R181). -/
  | clrerr
deriving DecidableEq, Repr

end Sys2Proof
end

