-- ==== Sys2Proof/WellFormed.lean ====
section
/-! DEFINITION. Which terms of `Instr` are commands: the count of a WRITE is 0 to 16 (30_encoding.md R83);
17 to 31 is reserved. -/

namespace Sys2Proof

/-- The check on a command's operands (30_encoding.md R83, R85). -/
def Instr.wf : Instr → Bool
  | .nop => true
  | .init32 => true
  | .init128 => true
  | .init64 => true
  | .write n => n.toNat ≤ 16
  | .sum32 => true
  | .sum128 => true
  | .clrerr => true

end Sys2Proof
end

