-- ==== Sys2Proof/Decode.lean ====
section
/-! DEFINITION. Decoding and encoding of the command word, format CMD64 (30_encoding.md R81 to R90).
Decoding is total: every 64-bit value selects one command or is rejected by name. A command word is one whole
64-bit value and has no byte order (20_memory.md R60, log 15). -/

namespace Sys2Proof

/-- Why a word is no command. Every one of them is E_ILLEGAL at the port (30_encoding.md R86, R88). -/
inductive DecodeError where
  /-- OP is 0x08 to 0xFF. -/
  | reservedOpcode
  /-- RSV is not 0. -/
  | reservedBits
  /-- N is not 0 on a command other than WRITE. -/
  | countOnNonWrite
  /-- N is 17 to 31 on WRITE. -/
  | countOutOfRange
deriving DecidableEq, Repr

/-- OP, w[7:0] (30_encoding.md R82). -/
def opField (w : Word) : BitVec 8 := w.extractLsb' 0 8

/-- N, w[12:8] (30_encoding.md R83). -/
def countField (w : Word) : BitVec 5 := w.extractLsb' 8 5

/-- RSV, w[63:13] (30_encoding.md R84). -/
def rsvField (w : Word) : BitVec 51 := w.extractLsb' 13 51

/-- The opcode map (30_encoding.md R85): the command of an OP, with the count for WRITE. -/
def opcodeCommand (op : BitVec 8) (n : BitVec 5) : Except DecodeError Instr :=
  match op.toNat with
  | 0x00 => .ok .nop
  | 0x01 => .ok .init32
  | 0x02 => .ok .init128
  | 0x03 => .ok .init64
  | 0x04 => .ok (.write n)
  | 0x05 => .ok .sum32
  | 0x06 => .ok .sum128
  | 0x07 => .ok .clrerr
  | _ => .error .reservedOpcode

/-- The checks of 30_encoding.md R86, in its order, and then the opcode map. -/
def decode (w : Word) : Except DecodeError Instr :=
  if 0x08 ≤ (opField w).toNat then .error .reservedOpcode
  else if rsvField w ≠ 0 then .error .reservedBits
  else if (opField w).toNat ≠ 0x04 ∧ countField w ≠ 0 then .error .countOnNonWrite
  else if (opField w).toNat = 0x04 ∧ 16 < (countField w).toNat then .error .countOutOfRange
  else opcodeCommand (opField w) (countField w)

/-- OP of a command (30_encoding.md R85). -/
def Instr.opcode : Instr → BitVec 8
  | .nop => 0x00
  | .init32 => 0x01
  | .init128 => 0x02
  | .init64 => 0x03
  | .write _ => 0x04
  | .sum32 => 0x05
  | .sum128 => 0x06
  | .clrerr => 0x07

/-- N of a command: the count of a WRITE, 0 for every other command (30_encoding.md R83). -/
def Instr.count : Instr → BitVec 5
  | .write n => n
  | .nop => 0
  | .init32 => 0
  | .init128 => 0
  | .init64 => 0
  | .sum32 => 0
  | .sum128 => 0
  | .clrerr => 0

/-- The legal word of a command, `OP | (N << 8)` with RSV 0 (30_encoding.md R81, R85). -/
def encode (i : Instr) : Word :=
  i.opcode.setWidth 64 ||| (i.count.setWidth 64 <<< 8)

/-- An opcode-table word of `nbits` bits as the 64-bit command word: the bits above `nbits` are 0. -/
def tableWord (nbits w : Nat) : Word := BitVec.ofNat 64 (w % 2 ^ nbits)

/-- The command the decoder reads from an opcode-table word (bit 0 least significant), none where it refuses. -/
def decodeTableWord (nbits w : Nat) : Option Instr :=
  match decode (tableWord nbits w) with
  | .ok i => some i
  | .error _ => none

end Sys2Proof
end

