-- ==== Sys2Proof/Config.lean ====
section
/-! DEFINITION. What an implementation fixes and the spec leaves open: the free values drawn for the hidden
state (93_implementation_defined.md U1, U2, U3) and the size of a register window (20_memory.md R50). The platform
parameters MH3_BASE and MH3_INSTANCES are arguments of `Sys2Proof.Machine.Platform` (00_scope.md R7). -/

namespace Sys2Proof

/-- The value H1 holds after the `k`-th draw: "unspecified" (10_state.md R33, R39). DESIGN CHOICE, log 4. -/
opaque Config.freeH1 : Nat → Word

/-- The value H2 holds after the `k`-th draw: "unspecified" (10_state.md R34, R39). DESIGN CHOICE, log 4. -/
opaque Config.freeH2 : Nat → Word

/-- The byte BUF[i] holds after the `k`-th draw, for each k and i: "hold no defined value" (10_state.md R35).
DESIGN CHOICE, log 4 and log 5. -/
opaque Config.freeByte : Nat → Nat → Byte

/-- BUF after the `k`-th draw: sixteen free bytes, each its own, so that a byte written over one is known again. -/
def Config.freeBuf (k : Nat) : Vector Byte 16 :=
  #v[Config.freeByte k 0, Config.freeByte k 1, Config.freeByte k 2, Config.freeByte k 3, Config.freeByte k 4,
    Config.freeByte k 5, Config.freeByte k 6, Config.freeByte k 7, Config.freeByte k 8, Config.freeByte k 9,
    Config.freeByte k 10, Config.freeByte k 11, Config.freeByte k 12, Config.freeByte k 13, Config.freeByte k 14,
    Config.freeByte k 15]

/-- The register window is 64 bytes long (20_memory.md R50). -/
def Config.windowBytes : Nat := 64

end Sys2Proof
end

