-- ==== Sys2Proof/Machine/State.lean ====
section
/-! DEFINITION. The state of one MH3 CORE instance as plain data (10_state.md), with the port accesses its hosts
have issued and the values the port has returned, the outcomes of a step, and the state after reset (R39). -/

namespace Sys2Proof.Machine

/-- MODE (10_state.md R24). The reserved value 3 is "never held by the CORE" and has no constructor (log 13). -/
inductive Mode where
  /-- NONE, 0: no engine is bound. -/
  | none
  /-- M32, 1: the 32-bit engine. -/
  | m32
  /-- M128, 2: the 128-bit engine. -/
  | m128
deriving DecidableEq, Repr

/-- ERRCODE (10_state.md R26, 60_exceptions.md R191). The codes 5 to 15 are "never produced" and have no
constructor (log 13). -/
inductive ErrCode where
  /-- 0: no error since reset or the last CLRERR. -/
  | none
  /-- 1, E_ILLEGAL: a malformed command word. -/
  | illegal
  /-- 2, E_NOINIT: WRITE, SUM32 or SUM128 while MODE = NONE. -/
  | noInit
  /-- 3, E_MODE: a SUM of the other engine. -/
  | mode
  /-- 4, E_BUS: an illegal access, or a write to a read-only register. -/
  | bus
deriving DecidableEq, Repr

/-- The eight registers of the window (10_state.md R22). -/
inductive Reg where
  | id
  | cmd
  | status
  | arg0
  | arg1
  | dig0
  | dig1
  | len
deriving DecidableEq, Repr

/-- What a port access moves: a read, or a write of a value. -/
inductive Transfer where
  | read
  | write (v : Word)
deriving DecidableEq, Repr

/-- One host access: the host that issues it, the byte offset in the 64-byte window, the size in bytes
(20_memory.md R51, R53). Every offset of the window and every size can be presented (log 8). -/
structure Access where
  host : Nat
  off : Fin 64
  size : Nat
  transfer : Transfer
deriving DecidableEq, Repr

/-- What reaches the CORE from outside: a port access, or its reset input (70_reset_and_hazards.md R220). -/
inductive Event where
  | access (a : Access)
  | reset
deriving DecidableEq, Repr

/-- A value the port has returned, and the host it went to. -/
structure ReadResult where
  host : Nat
  value : Word
deriving DecidableEq, Repr

/-- The state of one CORE instance. ID is a constant and CMD has no storage (10_state.md R23, R30); STATUS is
assembled from MODE, BLEN and ERRCODE (R25). -/
structure State where
  /-- MODE (R24). -/
  mode : Mode
  /-- ERRCODE (R26). -/
  errcode : ErrCode
  /-- ARG0 (R28). -/
  arg0 : Word
  /-- ARG1 (R29). -/
  arg1 : Word
  /-- DIG0 (R31). -/
  dig0 : Word
  /-- DIG1 (R32). -/
  dig1 : Word
  /-- LEN (R27). -/
  len : Word
  /-- H1, hidden (R33). -/
  h1 : Word
  /-- H2, hidden (R34). -/
  h2 : Word
  /-- BUF[0..15], hidden (R35). -/
  buf : Vector Byte 16
  /-- BLEN (R35). -/
  blen : BitVec 4
  /-- The model's own: how many free values have been drawn (log 4). -/
  draws : Nat
  /-- The model's own: the events not yet performed, in the order the port performs them (log 1, log 6). -/
  port : List Event
  /-- The model's own: the values the port has returned, oldest first (log 1). -/
  reads : List ReadResult
deriving DecidableEq, Repr

/-- What stops the machine: nothing. "Every access and every command has exactly one defined outcome"
(93_implementation_defined.md) and "the CORE has no hang and no stuck state" (70_reset_and_hazards.md R231), so no
constructor stands here; an error is an ERRCODE, not a stop (60_exceptions.md R194; log 17). -/
inductive Fault where
deriving DecidableEq, Repr

/-- Why the model gives a command no meaning. -/
inductive Refusal where
  /-- Raised by `exec` alone, for a command that has no meaning yet; safe. No arm raises it. -/
  | notModelled (mnemonic : String)
deriving DecidableEq, Repr

/-- The outcome of a step of this machine. -/
abbrev Result := Host.Outcome State Fault Refusal

/-- The state after reset (10_state.md R39): MODE NONE, everything host-readable 0. H1, H2 and BUF are
unspecified there and start at 0: DESIGN CHOICE, log 3. Nothing has been issued on the port (log 1). -/
def State.reset : State where
  mode := .none
  errcode := .none
  arg0 := 0
  arg1 := 0
  dig0 := 0
  dig1 := 0
  len := 0
  h1 := 0
  h2 := 0
  buf := Vector.replicate 16 0
  blen := 0
  draws := 0
  port := []
  reads := []

end Sys2Proof.Machine
end

