-- ==== Sys2Proof/Machine/Operands.lean ====
section
/-! DEFINITION. Operand assembly (30_encoding.md R87): seeds and chunk bytes out of ARG0 and ARG1, the pending
bytes out of BUF, the block size of a mode. -/

namespace Sys2Proof.Machine

/-- BS(MODE): 4 for M32, 16 for M128, "not defined for NONE" (10_state.md R24). -/
def Mode.blockSize : Mode → Option Nat
  | .none => Option.none
  | .m32 => some 4
  | .m128 => some 16

/-- The seed of INIT32: ARG0[31:0]; ARG0[63:32] is ignored (30_encoding.md R87). -/
def seed32 (s : State) : Word32 := s.arg0.setWidth 32

/-- chunk_byte(i) (20_memory.md R61): byte i of ARG0 for i < 8, byte i − 8 of ARG1 for 8 ≤ i ≤ 15. -/
def chunkByte (a0 a1 : Word) (i : Nat) : Byte :=
  if i < 8 then a0.extractLsb' (8 * i) 8 else a1.extractLsb' (8 * (i - 8)) 8

/-- The chunk of a WRITE n: `[chunk_byte(0), ..., chunk_byte(n−1)]` (30_encoding.md R87). -/
def chunk (a0 a1 : Word) (n : Nat) : List Byte := (List.range n).map (chunkByte a0 a1)

/-- PEND = `[BUF[0], ..., BUF[BLEN−1]]` (10_state.md R35). -/
def State.pend (s : State) : List Byte := s.buf.toList.take s.blen.toNat

end Sys2Proof.Machine
end

