-- ==== Sys2Proof/Machine/Ops.lean ====
section
/-! DEFINITION. The named operations over the registers: recording an error (60_exceptions.md R193) and clearing it
(43_control.md R181), starting a stream, the pending buffer, producing a digest, returning a read value, and reset. -/

namespace Sys2Proof.Machine

/-- RecordError(code): the first error since the last clear is kept (60_exceptions.md R193). This is the whole
of taking an error: no state is saved and no control is transferred (R197). -/
def State.recordError (s : State) (c : ErrCode) : State :=
  { s with errcode := if s.errcode = .none then c else s.errcode }

/-- Re-arm error recording: ERRCODE <- 0 (43_control.md R181, 60_exceptions.md R198). -/
def State.clearError (s : State) : State := { s with errcode := .none }

/-- `raise Error(code)`: record the code and end the command with no other effect (00_scope.md R13,
60_exceptions.md R194). -/
def raise (c : ErrCode) (s : State) : Result := .next (s.recordError c)

/-- PEND becomes empty: BLEN <- 0, and the bytes of BUF become don't-care (40_engine32.md R107, 10_state.md R35),
which the model draws as free values (log 5). -/
def State.emptyBuffer (s : State) : State :=
  { s with blen := 0, buf := Config.freeBuf s.draws, draws := s.draws + 1 }

/-- What every INIT does with its mode and seeds: MODE, H1, H2, BLEN <- 0, LEN <- 0
(40_engine32.md R107, 41_engine128.md R140, R141). -/
def State.startStream (s : State) (m : Mode) (x1 x2 : Word) : State :=
  { s.emptyBuffer with mode := m, h1 := x1, h2 := x2, len := 0 }

/-- The accumulators after a block (42_streaming.md R162). -/
def State.setAccumulators (s : State) (x1 x2 : Word) : State := { s with h1 := x1, h2 := x2 }

/-- `BUF[BLEN] <- b; LEN <- LEN + 1`, the part of Absorb before BLEN moves (42_streaming.md R161). -/
def State.putByte (s : State) (b : Byte) : State :=
  { s with buf := s.buf.set s.blen.toNat b s.blen.isLt, len := s.len + 1 }

/-- `BLEN <- BLEN + 1` (42_streaming.md R161). -/
def State.advanceCursor (s : State) : State := { s with blen := s.blen + 1 }

/-- A successful SUM writes DIG0 and DIG1 (10_state.md R31, R32). -/
def State.setDigest (s : State) (d0 d1 : Word) : State := { s with dig0 := d0, dig1 := d1 }

/-- A host write of ARG0 (20_memory.md R56). -/
def State.setArg0 (s : State) (v : Word) : State := { s with arg0 := v }

/-- A host write of ARG1 (20_memory.md R56). -/
def State.setArg1 (s : State) (v : Word) : State := { s with arg1 := v }

/-- The port returns a read value to a host (20_memory.md R54). -/
def State.returnRead (s : State) (h : Nat) (v : Word) : State :=
  { s with reads := s.reads ++ [⟨h, v⟩] }

/-- The pending events of the port. -/
def State.setPort (s : State) (es : List Event) : State := { s with port := es }

/-- The reset input (70_reset_and_hazards.md R220, 10_state.md R39): every host-readable register takes its reset
value; H1, H2 and BUF are unspecified, so each is a free value (log 4). The hosts' pending events and the values
already returned are outside the CORE and stay. -/
def State.hardReset (s : State) : State :=
  { State.reset with
    h1 := Config.freeH1 s.draws
    h2 := Config.freeH2 s.draws
    buf := Config.freeBuf s.draws
    draws := s.draws + 1
    port := s.port
    reads := s.reads }

end Sys2Proof.Machine
end

