-- ==== Sys2Proof/Machine/Control.lean ====
section
/-! DEFINITION. The control commands NOP and CLRERR (43_control.md). -/

namespace Sys2Proof.Machine

/-- NOP (43_control.md R180): nothing. -/
def execNop (s : State) : Result := .next s

/-- CLRERR (43_control.md R181): ERRCODE <- 0. -/
def execClrerr (s : State) : Result := .next s.clearError

end Sys2Proof.Machine
end

