-- ==== Sys2Proof/Machine/Bits.lean ====
section
/-! DEFINITION. The operators of the notation that `BitVec` does not name: rotates (00_scope.md R10), little-endian
composition and big-endian serialization of byte sequences (R12). -/

namespace Sys2Proof.Machine

/-- rotl32(x, r), for 1 ≤ r ≤ 31 (00_scope.md R10). -/
def rotl32 (x : Word32) (r : Nat) : Word32 := (x <<< r) ||| (x >>> (32 - r))

/-- rotl64(x, r), for 1 ≤ r ≤ 63 (00_scope.md R10). -/
def rotl64 (x : Word) (r : Nat) : Word := (x <<< r) ||| (x >>> (64 - r))

/-- LE(s): the first byte is least significant (00_scope.md R12). -/
def leNat : List Byte → Nat
  | [] => 0
  | b :: bs => b.toNat + 256 * leNat bs

/-- LE(s) as a u32. -/
def le32 (bs : List Byte) : Word32 := BitVec.ofNat 32 (leNat bs)

/-- LE(s) as a u64. -/
def le64 (bs : List Byte) : Word := BitVec.ofNat 64 (leNat bs)

/-- BE_bytes_n(v): the n bytes of v from most to least significant (00_scope.md R12). -/
def beBytes : Nat → Nat → List Byte
  | 0, _ => []
  | n + 1, v => BitVec.ofNat 8 (v / 256 ^ n) :: beBytes n v

end Sys2Proof.Machine
end

