-- ==== Sys2Proof/Machine/Engine128.lean ====
section
/-! DEFINITION. The 128-bit engine (41_engine128.md): its pure functions, the 64-bit truncation, and the commands
INIT128, INIT64 and SUM128. A constant stands on the left of a product or sum (both commute), as in Engine32. -/

namespace Sys2Proof.Machine

/-- The constant C1 (41_engine128.md R130). -/
def c1 : Word := 0x87c37b91114253d5

/-- The constant C2 (41_engine128.md R130). -/
def c2 : Word := 0x4cf5ad432745937f

/-- MixK1 (41_engine128.md R131). -/
def mixK1 (k : Word) : Word := c2 * rotl64 (c1 * k) 31

/-- MixK2 (41_engine128.md R132): C2 first, rotate 33, then C1. -/
def mixK2 (k : Word) : Word := c1 * rotl64 (c2 * k) 33

/-- Block128 (41_engine128.md R134), with the load of R133: the h2 update reads the new h1. -/
def block128 (h1 h2 : Word) (b : List Byte) : Word × Word :=
  let k1 := le64 (b.take 8)
  let k2 := le64 (b.drop 8)
  let n1 := 0x52dce729 + 5 * (rotl64 (h1 ^^^ mixK1 k1) 27 + h2)
  let n2 := 0x38495ab5 + 5 * (rotl64 (h2 ^^^ mixK2 k2) 31 + n1)
  (n1, n2)

/-- Tail128 (41_engine128.md R135): bytes 8 to 14 enter h2, bytes 0 to 7 enter h1. -/
def tail128 (h1 h2 : Word) (t : List Byte) : Word × Word :=
  let n2 := if 8 < t.length then h2 ^^^ mixK2 (le64 (t.drop 8)) else h2
  let n1 := if 0 < t.length then h1 ^^^ mixK1 (le64 (t.take 8)) else h1
  (n1, n2)

/-- Fmix64, the 64-bit avalanche (41_engine128.md R136). -/
def fmix64 (x : Word) : Word :=
  let x := x ^^^ (x >>> 33)
  let x := 0xff51afd7ed558ccd * x
  let x := x ^^^ (x >>> 33)
  let x := 0xc4ceb9fe1a85ec53 * x
  x ^^^ (x >>> 33)

/-- Final128 (41_engine128.md R137). -/
def final128 (h1 h2 : Word) (t : List Byte) (len : Word) : Word × Word :=
  let p := tail128 h1 h2 t
  let h1 := p.1 ^^^ len
  let h2 := p.2 ^^^ len
  let h1 := h1 + h2
  let h2 := h2 + h1
  let h1 := fmix64 h1
  let h2 := fmix64 h2
  let h1 := h1 + h2
  let h2 := h2 + h1
  (h1, h2)

/-- The block loop of Digest128 (41_engine128.md R138). -/
def blocks128 (h1 h2 : Word) (data : List Byte) : Word × Word :=
  (List.range (data.length / 16)).foldl
    (fun p j => block128 p.1 p.2 ((data.drop (16 * j)).take 16)) (h1, h2)

/-- Digest128, the one-shot function (41_engine128.md R138). The length is taken as a u64 (log 10). -/
def digest128 (seed1 seed2 : Word) (data : List Byte) : Word × Word :=
  let p := blocks128 seed1 seed2 data
  final128 p.1 p.2 (data.drop (16 * (data.length / 16))) (BitVec.ofNat 64 data.length)

/-- Digest64: the first word of Digest128 with both seeds equal (41_engine128.md R139). -/
def digest64 (seed : Word) (data : List Byte) : Word := (digest128 seed seed data).1

/-- INIT128 (41_engine128.md R140). -/
def execInit128 (s : State) : Result := .next (s.startStream .m128 s.arg0 s.arg1)

/-- INIT64 (41_engine128.md R141): ARG0 seeds both halves. -/
def execInit64 (s : State) : Result := .next (s.startStream .m128 s.arg0 s.arg0)

/-- SUM128 (41_engine128.md R142): a snapshot; only DIG0 and DIG1 are written. -/
def execSum128 (s : State) : Result :=
  match s.mode with
  | .none => raise .noInit s
  | .m32 => raise .mode s
  | .m128 =>
    let d := final128 s.h1 s.h2 s.pend s.len
    .next (s.setDigest d.1 d.2)

end Sys2Proof.Machine
end

