-- ==== Sys2Proof/Machine/Engine32.lean ====
section
/-! DEFINITION. The 32-bit engine (40_engine32.md): its pure functions, and the commands INIT32 and SUM32.
A constant stands on the left of a product or sum (both commute): reduction of `x * c` on an open `x` would unfold the
constant in unary. -/

namespace Sys2Proof.Machine

/-- Mix32 (40_engine32.md R100). -/
def mix32 (k : Word32) : Word32 := 0x1b873593 * rotl32 (0xcc9e2d51 * k) 15

/-- Block32 (40_engine32.md R102), with the little-endian load of R101. -/
def block32 (h : Word32) (b : List Byte) : Word32 :=
  0xe6546b64 + 5 * rotl32 (h ^^^ mix32 (le32 b)) 13

/-- Tail32 (40_engine32.md R103): no rotate, multiply or add; the pack is little-endian (log 9). -/
def tail32 (h : Word32) (t : List Byte) : Word32 :=
  if t.length = 0 then h else h ^^^ mix32 (le32 t)

/-- Fmix32, the avalanche (40_engine32.md R104). -/
def fmix32 (h : Word32) : Word32 :=
  let h := h ^^^ (h >>> 16)
  let h := 0x85ebca6b * h
  let h := h ^^^ (h >>> 13)
  let h := 0xc2b2ae35 * h
  h ^^^ (h >>> 16)

/-- Final32 (40_engine32.md R105): only L[31:0] enters. -/
def final32 (h : Word32) (t : List Byte) (len : Word) : Word32 :=
  fmix32 (tail32 h t ^^^ len.setWidth 32)

/-- The block loop of Digest32 (40_engine32.md R106). -/
def blocks32 (h : Word32) (data : List Byte) : Word32 :=
  (List.range (data.length / 4)).foldl (fun h j => block32 h ((data.drop (4 * j)).take 4)) h

/-- Digest32, the one-shot function (40_engine32.md R106). The length is taken as a u64 (log 10). -/
def digest32 (seed : Word32) (data : List Byte) : Word32 :=
  final32 (blocks32 seed data) (data.drop (4 * (data.length / 4))) (BitVec.ofNat 64 data.length)

/-- INIT32 (40_engine32.md R107). -/
def execInit32 (s : State) : Result :=
  .next (s.startStream .m32 ((seed32 s).setWidth 64) 0)

/-- SUM32 (40_engine32.md R108): a snapshot; only DIG0 and DIG1 are written. -/
def execSum32 (s : State) : Result :=
  match s.mode with
  | .none => raise .noInit s
  | .m128 => raise .mode s
  | .m32 => .next (s.setDigest ((final32 (s.h1.setWidth 32) s.pend s.len).setWidth 64) 0)

end Sys2Proof.Machine
end

