-- ==== Sys2Proof/Machine/Streaming.lean ====
section
/-! DEFINITION. The streaming adapter (42_streaming.md): absorbing bytes and the command WRITE. -/

namespace Sys2Proof.Machine

/-- ProcessBlock (42_streaming.md R162): the engine's block step on the full buffer. -/
def processBlock (s : State) : State :=
  match s.mode with
  | .none => s
  | .m32 => s.setAccumulators ((block32 (s.h1.setWidth 32) (s.buf.toList.take 4)).setWidth 64) s.h2
  | .m128 =>
    let p := block128 s.h1 s.h2 s.buf.toList
    s.setAccumulators p.1 p.2

/-- Absorb(b) (42_streaming.md R161). The byte that makes BLEN equal BS(MODE) completes a block; BLEN is compared
as a number, since BS(M128) = 16 does not fit its 4 bits (log 12). -/
def absorb (s : State) (b : Byte) : State :=
  if s.mode.blockSize = some (s.blen.toNat + 1) then (processBlock (s.putByte b)).emptyBuffer
  else (s.putByte b).advanceCursor

/-- Absorb a sequence of bytes in order. -/
def absorbAll (s : State) (bs : List Byte) : State := bs.foldl absorb s

/-- WRITE n (42_streaming.md R163). The count is checked first, then the mode, then every byte of the chunk is
absorbed. ARG0 and ARG1 are sampled once (20_memory.md R66). A count above 16 cannot be decoded; a term with one
takes the error R163 names (log 11). -/
def execWrite (n : BitVec 5) (s : State) : Result :=
  if 16 < n.toNat then raise .illegal s
  else
    match s.mode with
    | .none => raise .noInit s
    | .m32 => .next (absorbAll s (chunk s.arg0 s.arg1 n.toNat))
    | .m128 => .next (absorbAll s (chunk s.arg0 s.arg1 n.toNat))

end Sys2Proof.Machine
end

