-- ==== Sys2Proof/Machine/Dispatch.lean ====
section
/-! DEFINITION. The meaning of each command, one arm per constructor (30_encoding.md R86). -/

namespace Sys2Proof.Machine

def exec (i : Instr) (s : State) : Host.Outcome State Fault Refusal :=
  match i with
  | .nop => Sys2Proof.Machine.execNop s
  | .init32 => Sys2Proof.Machine.execInit32 s
  | .init128 => Sys2Proof.Machine.execInit128 s
  | .init64 => Sys2Proof.Machine.execInit64 s
  | .write n => Sys2Proof.Machine.execWrite n s
  | .sum32 => Sys2Proof.Machine.execSum32 s
  | .sum128 => Sys2Proof.Machine.execSum128 s
  | .clrerr => Sys2Proof.Machine.execClrerr s

end Sys2Proof.Machine
end

