-- ==== Sys2Proof/Machine/Flags.lean ====
section
/-! DEFINITION. The status word: the codes of MODE and ERRCODE and the assembly of STATUS (10_state.md R24 to R26). -/

namespace Sys2Proof.Machine

/-- The value of MODE in STATUS[1:0] (10_state.md R24). -/
def Mode.code : Mode → BitVec 2
  | .none => 0
  | .m32 => 1
  | .m128 => 2

/-- The value of ERRCODE in STATUS[19:16] (60_exceptions.md R191). -/
def ErrCode.code : ErrCode → BitVec 4
  | .none => 0
  | .illegal => 1
  | .noInit => 2
  | .mode => 3
  | .bus => 4

/-- The value a read of STATUS returns: `zext_64(ERRCODE << 16 | BLEN << 8 | MODE)` (10_state.md R25). -/
def statusWord (s : State) : Word :=
  (s.errcode.code.setWidth 64 <<< 16) ||| (s.blen.setWidth 64 <<< 8) ||| s.mode.code.setWidth 64

end Sys2Proof.Machine
end

