-- ==== Sys2Proof/Machine/Port.lean ====
section
/-! DEFINITION. The host port (20_memory.md): the register map, legal and illegal accesses, the value of each
register, the effect of a write, and the execution of a command word. -/

namespace Sys2Proof.Machine

/-- The constant ID (10_state.md R23). -/
def idValue : Word := 0x000000074D483343

/-- The offset of each register (20_memory.md R52). -/
def Reg.offset : Reg → Fin 64
  | .id => 0x00
  | .cmd => 0x08
  | .status => 0x10
  | .arg0 => 0x18
  | .arg1 => 0x20
  | .dig0 => 0x28
  | .dig1 => 0x30
  | .len => 0x38

/-- legal(off, size) (20_memory.md R53, R54). -/
def legal (off : Fin 64) (size : Nat) : Bool := size == 8 && off.val % 8 == 0 && off.val ≤ 0x38

/-- The register at an 8-byte-aligned offset: "every 8-byte-aligned offset holds a register" (20_memory.md R52). -/
def registerAt (off : Fin 64) : Reg :=
  match off.val / 8 with
  | 0 => .id
  | 1 => .cmd
  | 2 => .status
  | 3 => .arg0
  | 4 => .arg1
  | 5 => .dig0
  | 6 => .dig1
  | _ => .len

/-- RegValue(off), with 0 for CMD (20_memory.md R55, R58). -/
def regValue (s : State) : Reg → Word
  | .id => idValue
  | .cmd => 0
  | .status => statusWord s
  | .arg0 => s.arg0
  | .arg1 => s.arg1
  | .dig0 => s.dig0
  | .dig1 => s.dig1
  | .len => s.len

/-- Execute(w) (30_encoding.md R86): a word that is no command records E_ILLEGAL. -/
def execute (w : Word) (s : State) : Result :=
  match decode w with
  | .ok i => exec i s
  | .error _ => raise .illegal s

/-- RegWrite(off, v) (20_memory.md R56): ARG0 and ARG1 are stored, CMD executes, and a read-only register records
E_BUS (R57). -/
def regWrite (r : Reg) (v : Word) (s : State) : Result :=
  match r with
  | .cmd => execute v s
  | .arg0 => .next (s.setArg0 v)
  | .arg1 => .next (s.setArg1 v)
  | .id => raise .bus s
  | .status => raise .bus s
  | .dig0 => raise .bus s
  | .dig1 => raise .bus s
  | .len => raise .bus s

/-- PortRead(off, size) (20_memory.md R54): an illegal read records E_BUS and returns 0. -/
def portRead (host : Nat) (off : Fin 64) (size : Nat) (s : State) : Result :=
  if legal off size then .next (s.returnRead host (regValue s (registerAt off)))
  else .next ((s.recordError .bus).returnRead host 0)

/-- PortWrite(off, size, v) (20_memory.md R54): an illegal write records E_BUS and does nothing else. -/
def portWrite (off : Fin 64) (size : Nat) (v : Word) (s : State) : Result :=
  if legal off size then regWrite (registerAt off) v s else raise .bus s

/-- One port access. The host that issues it gets the value of a read and has no other influence
(60_exceptions.md R200). -/
def performAccess (a : Access) (s : State) : Result :=
  match a.transfer with
  | .read => portRead a.host a.off a.size s
  | .write v => portWrite a.off a.size v s

/-- One event: a port access, or the reset input. -/
def perform (e : Event) (s : State) : Result :=
  match e with
  | .access a => performAccess a s
  | .reset => .next s.hardReset

/-- The access of the statement `st REG, v` (30_encoding.md R91). -/
def storeAccess (host : Nat) (r : Reg) (v : Word) : Event :=
  .access ⟨host, r.offset, 8, .write v⟩

/-- The access of the statement `ld REG` (30_encoding.md R91). -/
def loadAccess (host : Nat) (r : Reg) : Event := .access ⟨host, r.offset, 8, .read⟩

/-- The access that issues a command: `st CMD, w` with the command's word (30_encoding.md R92). -/
def issue (host : Nat) (i : Instr) : Event := storeAccess host .cmd (encode i)

end Sys2Proof.Machine
end

