-- ==== Sys2Proof/Machine/Step.lean ====
section
/-! DEFINITION. One step: one port event (30_encoding.md R80). -/

namespace Sys2Proof.Machine

/-- One step performs the oldest pending event whole (20_memory.md R65, R66). With none pending the CORE "waits for
host accesses, and it takes no step of its own" (70_reset_and_hazards.md R221): the state stays (log 1). -/
def step (s : State) : Host.Outcome State Fault Refusal :=
  match s.port with
  | [] => .next s
  | e :: es => perform e (s.setPort es)

/-- `s` with a host's write of the command word to CMD as the next access (log 2). -/
def State.withFetchWord (s : State) (nbits w : Nat) : State :=
  s.setPort (storeAccess 0 .cmd (tableWord nbits w) :: s.port)

end Sys2Proof.Machine
end

