-- ==== Sys2Proof/Machine/Digest.lean ====
section
/-! DEFINITION. The digest as bytes: the host serializes the digest words big-endian (20_memory.md R62). -/

namespace Sys2Proof.Machine

/-- bytes32 = BE_bytes_4(DIG0[31:0]), after SUM32 (20_memory.md R62). -/
def bytes32 (s : State) : List Byte := beBytes 4 (s.dig0.setWidth 32).toNat

/-- bytes64 = BE_bytes_8(DIG0), after SUM128 (20_memory.md R62). -/
def bytes64 (s : State) : List Byte := beBytes 8 s.dig0.toNat

/-- bytes128 = BE_bytes_8(DIG0) ++ BE_bytes_8(DIG1), after SUM128 (20_memory.md R62). -/
def bytes128 (s : State) : List Byte := beBytes 8 s.dig0.toNat ++ beBytes 8 s.dig1.toNat

end Sys2Proof.Machine
end

