-- ==== Sys2Proof/Machine/Platform.lean ====
section
/-! DEFINITION. A platform with several CORE instances (60_exceptions.md R203): MH3_INSTANCES is the length of the
list, and each instance has its own MH3_BASE (20_memory.md R51), both arguments of every statement about it (log 7). -/

namespace Sys2Proof.Machine

/-- One instance: its MH3_BASE and its state. -/
structure Instance where
  base : Nat
  core : State
deriving DecidableEq, Repr

/-- A host access by bus address. -/
structure BusAccess where
  host : Nat
  addr : Nat
  size : Nat
  transfer : Transfer
deriving DecidableEq, Repr

/-- `off = address − MH3_BASE` where the address lies in the window (20_memory.md R51). -/
def windowOffset (base addr : Nat) : Option (Fin 64) :=
  if base ≤ addr then
    if h : addr - base < Config.windowBytes then some ⟨addr - base, h⟩ else none
  else none

/-- The platform parameters (00_scope.md R7): at least one instance, each base a multiple of 64, no base shared. -/
def platformWf (p : List Instance) : Bool :=
  !p.isEmpty && p.all (fun x => x.base % 64 == 0) && decide (p.map Instance.base).Nodup

/-- One bus access: the instance whose window holds the address performs it, every other one is left alone. An
address in no window is "not the CORE's" (20_memory.md R51) and changes no instance. -/
def busAccess (a : BusAccess) : List Instance → Host.Outcome (List Instance) Fault Refusal
  | [] => .next []
  | x :: xs =>
    match windowOffset x.base a.addr with
    | some off =>
      match performAccess ⟨a.host, off, a.size, a.transfer⟩ x.core with
      | .next t => .next ({ x with core := t } :: xs)
      | .fault r => .fault r
      | .refused r => .refused r
    | none =>
      match busAccess a xs with
      | .next ys => .next (x :: ys)
      | .fault r => .fault r
      | .refused r => .refused r

end Sys2Proof.Machine
end

