-- ==== Sys2Proof/Machine/Program.lean ====
section
/-! DEFINITION. The pseudo-instructions of the assembler (30_encoding.md R94) as the port accesses they expand to.
`h` is the host that issues them. -/

namespace Sys2Proof.Machine

/-- `write n`: "an assembler refuses n > 16" (30_encoding.md R92). -/
def writeStatement (h : Nat) (n : Nat) : Option Event :=
  if n ≤ 16 then some (issue h (.write (BitVec.ofNat 5 n))) else none

/-- `seed32 s` (30_encoding.md R94). -/
def seed32Accesses (h : Nat) (seed : Word32) : List Event :=
  [storeAccess h .arg0 (seed.setWidth 64), issue h .init32]

/-- `seed128 s1, s2` (30_encoding.md R94). -/
def seed128Accesses (h : Nat) (s1 s2 : Word) : List Event :=
  [storeAccess h .arg0 s1, storeAccess h .arg1 s2, issue h .init128]

/-- `seed64 s` (30_encoding.md R94). -/
def seed64Accesses (h : Nat) (seed : Word) : List Event :=
  [storeAccess h .arg0 seed, issue h .init64]

/-- `data b0, ..., b(n−1)` for 1 ≤ n ≤ 16 (30_encoding.md R94): ARG1 is written only if n > 8. -/
def dataAccesses (h : Nat) (bs : List Byte) : List Event :=
  storeAccess h .arg0 (le64 (bs.take 8)) ::
    (if 8 < bs.length then [storeAccess h .arg1 (le64 (bs.drop 8))] else []) ++
    [issue h (.write (BitVec.ofNat 5 bs.length))]

/-- `message m` cut into at most `fuel` pieces of 16 bytes, the last one shorter (log 16). -/
def pieces : Nat → List Byte → List (List Byte)
  | 0, _ => []
  | fuel + 1, m => if m = [] then [] else m.take 16 :: pieces fuel (m.drop 16)

/-- `message m` (30_encoding.md R94): the pieces of m in order, each as one `data`. -/
def messageAccesses (h : Nat) (m : List Byte) : List Event :=
  (pieces m.length m).flatMap (dataAccesses h)

/-- `sum64 -> x` (30_encoding.md R94). -/
def sum64Accesses (h : Nat) : List Event := [issue h .sum128, loadAccess h .dig0]

/-- `hash32 s, m -> x` (30_encoding.md R94). -/
def hash32Accesses (h : Nat) (seed : Word32) (m : List Byte) : List Event :=
  seed32Accesses h seed ++ messageAccesses h m ++ [issue h .sum32, loadAccess h .dig0]

/-- `hash64 s, m -> x` (30_encoding.md R94). -/
def hash64Accesses (h : Nat) (seed : Word) (m : List Byte) : List Event :=
  seed64Accesses h seed ++ messageAccesses h m ++ sum64Accesses h

/-- `hash128 s1, s2, m -> x, y` (30_encoding.md R94). -/
def hash128Accesses (h : Nat) (s1 s2 : Word) (m : List Byte) : List Event :=
  seed128Accesses h s1 s2 ++ messageAccesses h m ++
    [issue h .sum128, loadAccess h .dig0, loadAccess h .dig1]

/-- Unseeded `hash32 m`: the seeded form with seed 0 (30_encoding.md R94). -/
def hash32Unseeded (h : Nat) (m : List Byte) : List Event := hash32Accesses h 0 m

/-- Unseeded `hash64 m`: the seeded form with seed 0 (30_encoding.md R94). -/
def hash64Unseeded (h : Nat) (m : List Byte) : List Event := hash64Accesses h 0 m

/-- Unseeded `hash128 m`: the seeded form with both seeds 0 (30_encoding.md R94). -/
def hash128Unseeded (h : Nat) (m : List Byte) : List Event := hash128Accesses h 0 0 m

end Sys2Proof.Machine
end

