-- ==== Sys2Proof/Safety.lean ====
section
/-! DEFINITION. What counts as a safe run, in the terms claims use: the invariants of the state, which code an event
raises (the tables of 60_exceptions.md), what an event does to the stream, and when two states look the same to
every host. -/

namespace Sys2Proof.Machine

/-- The invariants between accesses: the buffer invariant (10_state.md R36), the M32 invariant (R38), and an
unbound core has absorbed nothing. -/
abbrev State.Inv (s : State) : Prop :=
  (s.mode = .none → s.blen = 0 ∧ s.len = 0) ∧
  (s.mode = .m32 → s.blen.toNat < 4 ∧ s.blen.toNat = s.len.toNat % 4 ∧ s.h1.toNat < 2 ^ 32 ∧ s.h2 = 0) ∧
  (s.mode = .m128 → s.blen.toNat = s.len.toNat % 16)

/-- The streaming state is the same: MODE, H1, H2, BUF, BLEN, LEN. -/
abbrev State.sameStream (s t : State) : Prop :=
  t.mode = s.mode ∧ t.h1 = s.h1 ∧ t.h2 = s.h2 ∧ t.buf = s.buf ∧ t.blen = s.blen ∧ t.len = s.len

/-- The operand registers are the same. -/
abbrev State.sameOperands (s t : State) : Prop := t.arg0 = s.arg0 ∧ t.arg1 = s.arg1

/-- The digest registers are the same. -/
abbrev State.sameDigest (s t : State) : Prop := t.dig0 = s.dig0 ∧ t.dig1 = s.dig1

/-- Nothing has moved on the port: the pending events and the values returned are the same. -/
abbrev State.samePort (s t : State) : Prop := t.port = s.port ∧ t.reads = s.reads

/-- OP of a command word as a number, w[7:0] (30_encoding.md R82). -/
abbrev wordOp (w : Word) : Nat := w.toNat % 256

/-- N of a command word as a number, w[12:8] (30_encoding.md R83). -/
abbrev wordCount (w : Word) : Nat := w.toNat / 256 % 32

/-- RSV of a command word as a number, w[63:13] (30_encoding.md R84). -/
abbrev wordRsv (w : Word) : Nat := w.toNat / 8192

/-- A reserved encoding (30_encoding.md R88). -/
abbrev wordReserved (w : Word) : Prop :=
  8 ≤ wordOp w ∨ (wordOp w = 4 ∧ 17 ≤ wordCount w) ∨ (wordOp w ≠ 4 ∧ wordCount w ≠ 0) ∨ wordRsv w ≠ 0

/-- The code a command word raises in a mode (60_exceptions.md R191, R192, R195). -/
def commandError (w : Word) (m : Mode) : Option ErrCode :=
  if wordReserved w then some .illegal
  else if m = .none ∧ (wordOp w = 4 ∨ wordOp w = 5 ∨ wordOp w = 6) then some .noInit
  else if (wordOp w = 5 ∧ m = .m128) ∨ (wordOp w = 6 ∧ m = .m32) then some .mode
  else none

/-- The code an event raises (60_exceptions.md R191): an access of another size or a misaligned one, then by the
offset of the register written (20_memory.md R52). -/
def raisedError (e : Event) (s : State) : Option ErrCode :=
  match e with
  | .reset => none
  | .access a =>
    if a.size ≠ 8 ∨ a.off.val % 8 ≠ 0 then some .bus
    else
      match a.transfer with
      | .read => none
      | .write v =>
        if a.off.val = 0x08 then commandError v s.mode
        else if a.off.val = 0x18 ∨ a.off.val = 0x20 then none
        else some .bus

/-- The command an event issues: a legal write to CMD of a word that decodes (30_encoding.md R80). -/
def issuedCommand (e : Event) : Option Instr :=
  match e with
  | .reset => none
  | .access a =>
    if a.size = 8 ∧ a.off.val = 0x08 then
      match a.transfer with
      | .read => none
      | .write w =>
        match decode w with
        | .ok i => some i
        | .error _ => none
    else none

/-- The event abandons the stream: a reset or an INIT (42_streaming.md R167). -/
def restarts (e : Event) : Bool :=
  e == .reset || issuedCommand e == some .init32 || issuedCommand e == some .init128 ||
    issuedCommand e == some .init64

/-- The event re-arms error recording: CLRERR or a reset (60_exceptions.md R198). -/
def rearms (e : Event) : Bool := e == .reset || issuedCommand e == some .clrerr

/-- ARG0 and ARG1 after an event that is no reset (20_memory.md R56). -/
def argsAfter (e : Event) (a0 a1 : Word) : Word × Word :=
  match e with
  | .reset => (0, 0)
  | .access a =>
    match a.transfer with
    | .read => (a0, a1)
    | .write v =>
      if a.size = 8 ∧ a.off.val = 0x18 then (v, a1)
      else if a.size = 8 ∧ a.off.val = 0x20 then (a0, v)
      else (a0, a1)

/-- The bytes an event writes to a live stream when ARG0 and ARG1 hold a0 and a1: the chunk of a WRITE
(42_streaming.md R163). -/
def bytesWritten (e : Event) (a0 a1 : Word) : List Byte :=
  match issuedCommand e with
  | some (.write n) => chunk a0 a1 n.toNat
  | _ => []

/-- The concatenation of the chunks of the WRITEs among some events, in order, starting with a0 and a1 in ARG0 and
ARG1: the message of 42_streaming.md R164. -/
def messageOf : List Event → Word → Word → List Byte
  | [], _, _ => []
  | e :: es, a0, a1 =>
    bytesWritten e a0 a1 ++ messageOf es (argsAfter e a0 a1).1 (argsAfter e a0 a1).2

/-- Two states look the same to every host, now and later: all but the hidden state that no rule reads. Unbound, that
is H1, H2 and BUF; bound, it is the bytes of BUF at and beyond BLEN (10_state.md R35, R37, R39). -/
def State.looksLike (s t : State) : Prop :=
  t.mode = s.mode ∧ t.errcode = s.errcode ∧ s.sameOperands t ∧ s.sameDigest t ∧ t.len = s.len ∧
  t.blen = s.blen ∧ s.samePort t ∧
  (s.mode ≠ .none → t.h1 = s.h1 ∧ t.h2 = s.h2 ∧ t.pend = s.pend)

end Sys2Proof.Machine
end

