-- ==== Sys2Proof/Certificates/Slice0/Obligations.lean ====
section
/-! DEFINITION. The statements about the MH3 CORE, each formalising rules of spec/ named in its docstring. -/

open Sys2Proof Sys2Proof.Machine

/-! ### Reset -/

/-- The reset state: every value 10_state.md R39 states (H1, H2 and BUF, which it leaves unspecified, are not
mentioned; the reserved bits of STATUS are in the value of STATUS). -/
def Obligations.ResetStateHoldsTheResetValues : Prop :=
  State.reset.mode = .none ∧ State.reset.blen = 0 ∧ State.reset.errcode = .none ∧ State.reset.len = 0 ∧
  State.reset.arg0 = 0 ∧ State.reset.arg1 = 0 ∧ State.reset.dig0 = 0 ∧ State.reset.dig1 = 0 ∧
  regValue State.reset .id = 0x000000074D483343 ∧ regValue State.reset .status = 0

/-- R220: the reset input gives every stated value whatever the state was, no access of any kind binds the core back
to NONE, and an INIT does not reset ERRCODE, DIG0, DIG1, ARG0 or ARG1. -/
def Obligations.OnlyTheResetInputResets : Prop :=
  (∀ s es, s.port = Event.reset :: es → ∃ t : State, step s = .next t ∧
    t.mode = .none ∧ t.blen = 0 ∧ t.errcode = .none ∧ t.len = 0 ∧ t.arg0 = 0 ∧ t.arg1 = 0 ∧ t.dig0 = 0 ∧
    t.dig1 = 0 ∧ regValue t .id = 0x000000074D483343 ∧ regValue t .status = 0) ∧
  (∀ s a es t, s.port = Event.access a :: es → step s = .next t → s.mode ≠ .none → t.mode ≠ .none) ∧
  (∀ s i, i = Instr.init32 ∨ i = Instr.init128 ∨ i = Instr.init64 → ∃ t : State, exec i s = .next t ∧
    t.errcode = s.errcode ∧ s.sameDigest t ∧ s.sameOperands t)

/-! ### Encoding and decoding -/

/-- R81, R83 and R85: the word of each command, OP in [7:0], N in [12:8], RSV 0. -/
def Obligations.EncodingOfEachCommand : Prop :=
  encode .nop = 0x0 ∧ encode .init32 = 0x1 ∧ encode .init128 = 0x2 ∧ encode .init64 = 0x3 ∧
  (∀ n : BitVec 5, (encode (.write n)).toNat = 0x4 + 256 * n.toNat) ∧
  encode .sum32 = 0x5 ∧ encode .sum128 = 0x6 ∧ encode .clrerr = 0x7

/-- R93: the encoding examples of the spec decode to the statements they stand for, and 0x1104 is no command. -/
def Obligations.WordsOfTheSpecDecode : Prop :=
  decode 0x0000000000000004 = .ok (.write 0) ∧ decode 0x0000000000000104 = .ok (.write 1) ∧
  decode 0x0000000000000504 = .ok (.write 5) ∧ decode 0x0000000000000804 = .ok (.write 8) ∧
  decode 0x0000000000000C04 = .ok (.write 12) ∧ decode 0x0000000000001004 = .ok (.write 16) ∧
  decode 0x0000000000000002 = .ok .init128 ∧ decode 0x0000000000000005 = .ok .sum32 ∧
  decode 0x0000000000001104 = .error .countOutOfRange

/-- Decoding and encoding agree in both directions: a word decodes to a command exactly when the command is well
formed and the word is its encoding. -/
def Obligations.DecodeAndEncodeAgree : Prop :=
  ∀ (w : Word) (i : Instr), decode w = .ok i ↔ i.wf = true ∧ encode i = w

/-- R88: each reserved encoding records E_ILLEGAL and has no other effect; and every other word is a command. -/
def Obligations.ReservedEncodingsRecordIllegal : Prop :=
  (∀ s h w es, s.port = storeAccess h .cmd w :: es → wordReserved w →
    step s = .next ((s.setPort es).recordError .illegal)) ∧
  (∀ w, ¬ wordReserved w → ∃ i, decode w = .ok i)

/-- The match and mask of each row of the opcode table: the decoded command is the row's, and N is the count. -/
def Obligations.OpcodeTableRowsDecode : Prop :=
  ∀ w : Word,
    (decode w = .ok .nop ↔ w = 0x0) ∧ (decode w = .ok .init32 ↔ w = 0x1) ∧ (decode w = .ok .init128 ↔ w = 0x2) ∧
    (decode w = .ok .init64 ↔ w = 0x3) ∧
    (∀ n : BitVec 5, decode w = .ok (.write n) ↔
      w &&& 0xFFFFFFFFFFFFE0FF = 0x4 ∧ w.extractLsb' 8 5 = n ∧ n.toNat ≤ 16) ∧
    (decode w = .ok .sum32 ↔ w = 0x5) ∧ (decode w = .ok .sum128 ↔ w = 0x6) ∧ (decode w = .ok .clrerr ↔ w = 0x7)

/-! ### The step and the port -/

/-- A write to CMD of a word that decodes runs the decoded command on the state with that access taken off the
port; the command is well formed. -/
def Obligations.StepRunsTheDecodedCommand : Prop :=
  ∀ s h w i es, s.port = storeAccess h .cmd w :: es → decode w = .ok i →
    i.wf = true ∧ step s = exec i (s.setPort es)

/-- R231: every step and every command answers a next state, and after as many steps as events are pending none is
pending. -/
def Obligations.EveryAccessCompletes : Prop :=
  (∀ s, ∃ t : State, step s = .next t) ∧ (∀ i s, ∃ t : State, exec i s = .next t) ∧
  (∀ s, ∃ t : State, Host.Core.run Sys2Proof.core s.port.length s = .next t ∧ t.port = [])

/-- R65 and R66: the port performs the pending events in order, one whole event a step; a step returns a value for
a read, to the host that issued it, and for nothing else. That a step is one event, that a reset takes its turn among
the accesses, and the fields port and reads are the model's choice (log 1, log 4). -/
def Obligations.AccessesArePerformedInOrder : Prop :=
  ∀ s e es, s.port = e :: es → ∃ t : State, step s = .next t ∧ t.port = es ∧
    ((∃ a v, e = .access a ∧ a.transfer = .read ∧ t.reads = s.reads ++ [⟨a.host, v⟩]) ∨
     ((∀ a, e = .access a → a.transfer ≠ .read) ∧ t.reads = s.reads))

/-- R221: with no access pending the core takes no step of its own. That the model's step then stays where it is is
the model's choice (log 1). -/
def Obligations.IdleCoreStays : Prop := ∀ s, s.port = [] → step s = .next s

/-- R58 and R55, with the read column of R52: a legal read returns the register's value (0 for CMD, and no error),
and changes no register; a second read with nothing between returns the same value. The list reads, where the model
keeps the value returned, is its own (log 1). -/
def Obligations.LegalReadReturnsTheRegister : Prop :=
  ∀ s h (off : Fin 64) es, off.val % 8 = 0 → s.port = .access ⟨h, off, 8, .read⟩ :: es →
    ∃ v, step s = .next ((s.setPort es).returnRead h v) ∧
      (off.val = 0x00 → v = 0x000000074D483343) ∧ (off.val = 0x08 → v = 0) ∧
      (off.val = 0x10 → v.toNat = s.errcode.code.toNat * 65536 + s.blen.toNat * 256 + s.mode.code.toNat) ∧
      (off.val = 0x18 → v = s.arg0) ∧ (off.val = 0x20 → v = s.arg1) ∧ (off.val = 0x28 → v = s.dig0) ∧
      (off.val = 0x30 → v = s.dig1) ∧ (off.val = 0x38 → v = s.len) ∧
      (∀ es', es = .access ⟨h, off, 8, .read⟩ :: es' → Host.Core.run Sys2Proof.core 2 s =
        .next (((s.setPort es').returnRead h v).returnRead h v))

/-- R54: an access of another size or at a misaligned offset records E_BUS; a write changes nothing else and
executes nothing, a read returns 0. -/
def Obligations.IllegalAccessOnlyRecordsBusError : Prop :=
  ∀ s h (off : Fin 64) size tr es, s.port = .access ⟨h, off, size, tr⟩ :: es → (size ≠ 8 ∨ off.val % 8 ≠ 0) →
    step s = .next (match tr with
      | .read => ((s.setPort es).recordError .bus).returnRead h 0
      | .write _ => (s.setPort es).recordError .bus)

/-- R57: a write to ID, STATUS, DIG0, DIG1 or LEN changes nothing and records E_BUS. -/
def Obligations.ReadOnlyWriteOnlyRecordsBusError : Prop :=
  ∀ s h (off : Fin 64) v es,
    (off.val = 0x00 ∨ off.val = 0x10 ∨ off.val = 0x28 ∨ off.val = 0x30 ∨ off.val = 0x38) →
    s.port = .access ⟨h, off, 8, .write v⟩ :: es → step s = .next ((s.setPort es).recordError .bus)

/-- R56 and R224: a write to ARG0 or ARG1 stores the value whole and has no other effect, and the read after it
returns the value. -/
def Obligations.ArgumentWriteStoresTheValue : Prop :=
  (∀ s h (off : Fin 64) v es, off.val = 0x18 → s.port = .access ⟨h, off, 8, .write v⟩ :: es →
    step s = .next { s with port := es, arg0 := v } ∧
    (∀ h' es', es = .access ⟨h', off, 8, .read⟩ :: es' → Host.Core.run Sys2Proof.core 2 s =
      .next { s with port := es', arg0 := v, reads := s.reads ++ [⟨h', v⟩] })) ∧
  (∀ s h (off : Fin 64) v es, off.val = 0x20 → s.port = .access ⟨h, off, 8, .write v⟩ :: es →
    step s = .next { s with port := es, arg1 := v } ∧
    (∀ h' es', es = .access ⟨h', off, 8, .read⟩ :: es' → Host.Core.run Sys2Proof.core 2 s =
      .next { s with port := es', arg1 := v, reads := s.reads ++ [⟨h', v⟩] }))

/-- R25: the fields of the STATUS word, its reserved bits, and the bound on BLEN (which needs the invariant). -/
def Obligations.StatusWordFields : Prop :=
  ∀ s : State,
    (regValue s .status).extractLsb' 0 2 = s.mode.code ∧ (regValue s .status).extractLsb' 2 6 = 0 ∧
    (regValue s .status).extractLsb' 8 4 = s.blen ∧ (regValue s .status).extractLsb' 12 4 = 0 ∧
    (regValue s .status).extractLsb' 16 4 = s.errcode.code ∧ (regValue s .status).extractLsb' 20 44 = 0 ∧
    s.mode.code.toNat ≤ 2 ∧ s.errcode.code.toNat ≤ 4 ∧
    (s.Inv → (s.mode = .none → s.blen.toNat = 0) ∧ (s.mode = .m32 → s.blen.toNat ≤ 3) ∧
      (s.mode = .m128 → s.blen.toNat ≤ 15))

/-- R200: which host issues an access decides only where a read's value goes. -/
def Obligations.HostIdentityDoesNotMatter : Prop :=
  ∀ s h h' (off : Fin 64) size tr, ∃ t t' : State, perform (.access ⟨h, off, size, tr⟩) s = .next t ∧
    perform (.access ⟨h', off, size, tr⟩) s = .next t' ∧ { t' with reads := [] } = { t with reads := [] } ∧
    t'.reads.map ReadResult.value = t.reads.map ReadResult.value

/-! ### Errors -/

/-- R193: an error is recorded only if none is, and what is recorded stays through every event but CLRERR and
reset. -/
def Obligations.FirstErrorIsKept : Prop :=
  (∀ s c, State.recordError s c = { s with errcode := if s.errcode = .none then c else s.errcode }) ∧
  (∀ s e es t, s.port = e :: es → step s = .next t → s.errcode ≠ .none → rearms e = false →
    t.errcode = s.errcode)

/-- R191, R192 and R195: which event raises which code. From ERRCODE 0, an event other than CLRERR and reset leaves
exactly the code the tables give it, and 0 where they give none. -/
def Obligations.ErrorTableIsFollowed : Prop :=
  ∀ s e es, s.port = e :: es → s.errcode = .none → ∃ t : State, step s = .next t ∧
    ∀ c, (raisedError e s = some c → t.errcode = c) ∧ (raisedError e s = none → t.errcode = .none)

/-- R194: an event that raises an error has no effect besides recording it; an illegal read returns 0. -/
def Obligations.ErrorsArePrecise : Prop :=
  ∀ s e es c, s.port = e :: es → raisedError e s = some c →
    step s = .next ((s.setPort es).recordError c) ∨
    (∃ h off size, e = .access ⟨h, off, size, .read⟩ ∧
      step s = .next (((s.setPort es).recordError c).returnRead h 0))

/-- R228 with R193: a check of ERRCODE after the last access is enough. If a run of events without CLRERR or reset
ends with ERRCODE 0, none of them raised an error in the state it was performed in. -/
def Obligations.FinalErrorCheckIsEnough : Prop :=
  ∀ (s : State) (pre : List Event) (e : Event) (post : List Event) (t : State),
    s.port = pre ++ e :: post → (∀ x ∈ pre ++ e :: post, rearms x = false) →
    Host.Core.run Sys2Proof.core (pre.length + 1 + post.length) s = .next t → t.errcode = .none →
    ∃ u : State, Host.Core.run Sys2Proof.core pre.length s = .next u ∧ u.port = e :: post ∧ raisedError e u = none

/-- R199 and R194: a set ERRCODE blocks nothing and enters nothing. Two states that differ only in ERRCODE stay so,
and only a read of STATUS tells them apart. -/
def Obligations.ErrcodeEntersNoDigest : Prop :=
  ∀ s e c, ∃ t t' : State, perform e s = .next t ∧ perform e { s with errcode := c } = .next t' ∧
    { t' with errcode := t.errcode, reads := t.reads } = t ∧
    ((∀ h off size, off.val = 0x10 → e ≠ .access ⟨h, off, size, .read⟩) → t'.reads = t.reads)

/-! ### Commands -/

/-- R180: NOP changes nothing in any state; a malformed NOP records E_ILLEGAL. -/
def Obligations.NopChangesNothing : Prop :=
  encode .nop = 0x0 ∧ (∀ s, exec .nop s = .next s) ∧
  (∀ w s, wordOp w = 0 → w ≠ 0x0 → execute w s = .next (s.recordError .illegal))

/-- R181: CLRERR sets ERRCODE to 0 in every mode and changes nothing else; a malformed CLRERR records E_ILLEGAL only
if ERRCODE was 0 and clears nothing. No event but CLRERR and a reset clears ERRCODE. -/
def Obligations.ClrerrClearsOnlyErrcode : Prop :=
  encode .clrerr = 0x7 ∧ (∀ s, exec .clrerr s = .next { s with errcode := .none }) ∧
  (∀ w s, wordOp w = 7 → w ≠ 0x7 → execute w s =
    .next { s with errcode := if s.errcode = .none then .illegal else s.errcode }) ∧
  (∀ s e es t, s.port = e :: es → step s = .next t → s.errcode ≠ .none → t.errcode = .none → rearms e = true)

/-- R107: INIT32 in every state, its frame, and the malformed words. BUF becomes don't-care, so nothing is said of
its bytes. -/
def Obligations.Init32StartsAnM32Stream : Prop :=
  encode .init32 = 0x1 ∧
  (∀ s, ∃ t : State, exec .init32 s = .next t ∧ t.mode = .m32 ∧ t.h1.toNat = s.arg0.toNat % 2 ^ 32 ∧ t.h2 = 0 ∧
    t.blen = 0 ∧ t.pend = [] ∧ t.len = 0 ∧
    t.errcode = s.errcode ∧ s.sameDigest t ∧ s.sameOperands t ∧ s.samePort t) ∧
  (∀ w s, wordOp w = 1 → w ≠ 0x1 → execute w s = .next (s.recordError .illegal))

/-- R140: INIT128 in every state, its frame, the malformed words; with ARG0 = ARG1 it is INIT64. -/
def Obligations.Init128StartsAnM128Stream : Prop :=
  encode .init128 = 0x2 ∧
  (∀ s, ∃ t : State, exec .init128 s = .next t ∧ t.mode = .m128 ∧ t.h1 = s.arg0 ∧ t.h2 = s.arg1 ∧
    t.blen = 0 ∧ t.pend = [] ∧ t.len = 0 ∧
    t.errcode = s.errcode ∧ s.sameDigest t ∧ s.sameOperands t ∧ s.samePort t) ∧
  (∀ s, s.arg0 = s.arg1 → exec .init128 s = exec .init64 s) ∧
  (∀ w s, wordOp w = 2 → w ≠ 0x2 → execute w s = .next (s.recordError .illegal))

/-- R141: INIT64 in every state, its frame, the malformed words; a SUM32 after it raises E_MODE. -/
def Obligations.Init64SeedsBothHalves : Prop :=
  encode .init64 = 0x3 ∧
  (∀ s, ∃ t : State, exec .init64 s = .next t ∧ t.mode = .m128 ∧ t.h1 = s.arg0 ∧ t.h2 = s.arg0 ∧
    t.blen = 0 ∧ t.pend = [] ∧ t.len = 0 ∧
    t.errcode = s.errcode ∧ s.sameDigest t ∧ s.sameOperands t ∧ s.samePort t ∧
    exec .sum32 t = .next (t.recordError .mode)) ∧
  (∀ w s, wordOp w = 3 → w ≠ 0x3 → execute w s = .next (s.recordError .illegal))

/-- R108: SUM32 in M32 writes the digest of a snapshot to DIG0, 0 to DIG1 and nothing else; in NONE and M128 it
raises its error and writes nothing. -/
def Obligations.Sum32WritesTheDigest : Prop :=
  encode .sum32 = 0x5 ∧
  (∀ s, s.mode = .m32 → ∃ t : State, exec .sum32 s = .next t ∧
    t.dig0.toNat = (fmix32 (tail32 (s.h1.extractLsb' 0 32) s.pend ^^^ s.len.extractLsb' 0 32)).toNat ∧ t.dig1 = 0 ∧
    s.sameStream t ∧ s.sameOperands t ∧ s.samePort t ∧ t.errcode = s.errcode) ∧
  (∀ s, s.mode = .none → exec .sum32 s = .next (s.recordError .noInit)) ∧
  (∀ s, s.mode = .m128 → exec .sum32 s = .next (s.recordError .mode)) ∧
  (∀ w s, wordOp w = 5 → w ≠ 0x5 → execute w s = .next (s.recordError .illegal))

/-- R142: SUM128 in M128 writes the digest pair of a snapshot to DIG0 and DIG1 and nothing else; in NONE and M32 it
raises its error and writes nothing. -/
def Obligations.Sum128WritesTheDigestPair : Prop :=
  encode .sum128 = 0x6 ∧
  (∀ s, s.mode = .m128 → ∃ t : State, exec .sum128 s = .next t ∧ (t.dig0, t.dig1) = final128 s.h1 s.h2 s.pend s.len ∧
    s.sameStream t ∧ s.sameOperands t ∧ s.samePort t ∧ t.errcode = s.errcode) ∧
  (∀ s, s.mode = .none → exec .sum128 s = .next (s.recordError .noInit)) ∧
  (∀ s, s.mode = .m32 → exec .sum128 s = .next (s.recordError .mode)) ∧
  (∀ w s, wordOp w = 6 → w ≠ 0x6 → execute w s = .next (s.recordError .illegal))

/-- R161 and R162: one absorbed byte joins the pending bytes; the byte that fills the block runs the engine's block
step on the whole block and empties the buffer. The premise on BLEN is the buffer invariant (R36). -/
def Obligations.AbsorbTakesOneByte : Prop :=
  ∀ (s : State) (b : Byte),
    (s.mode = .m32 → s.blen.toNat < 4 →
      (s.blen.toNat < 3 → (absorb s b).pend = s.pend ++ [b] ∧ (absorb s b).blen.toNat = s.blen.toNat + 1 ∧
        (absorb s b).h1 = s.h1 ∧ (absorb s b).h2 = s.h2) ∧
      (s.blen.toNat = 3 → (absorb s b).pend = [] ∧ (absorb s b).blen = 0 ∧ (absorb s b).h2 = s.h2 ∧
        (absorb s b).h1.toNat = (block32 (s.h1.extractLsb' 0 32) (s.pend ++ [b])).toNat)) ∧
    (s.mode = .m128 →
      (s.blen.toNat < 15 → (absorb s b).pend = s.pend ++ [b] ∧ (absorb s b).blen.toNat = s.blen.toNat + 1 ∧
        (absorb s b).h1 = s.h1 ∧ (absorb s b).h2 = s.h2) ∧
      (s.blen.toNat = 15 → (absorb s b).pend = [] ∧ (absorb s b).blen = 0 ∧
        ((absorb s b).h1, (absorb s b).h2) = block128 s.h1 s.h2 (s.pend ++ [b]))) ∧
    (absorb s b).len = s.len + 1 ∧ (absorb s b).mode = s.mode ∧ (absorb s b).errcode = s.errcode ∧
    s.sameOperands (absorb s b) ∧ s.sameDigest (absorb s b) ∧ s.samePort (absorb s b)

/-- R163: a WRITE of n ≤ 16 bytes in a bound core absorbs its n chunk bytes in order and changes neither the
arguments, the digest, the mode nor ERRCODE; n = 0 changes nothing; unbound it raises E_NOINIT. -/
def Obligations.WriteAbsorbsItsChunk : Prop :=
  (∀ n : BitVec 5, (encode (.write n)).toNat = 0x4 + 256 * n.toNat) ∧
  (∀ (n : BitVec 5) s, n.toNat ≤ 16 → s.mode ≠ .none → ∃ t : State, exec (.write n) s = .next t ∧
    t = (chunk s.arg0 s.arg1 n.toNat).foldl absorb s ∧ (n = 0 → t = s) ∧ t.len = s.len + n.setWidth 64 ∧
    t.mode = s.mode ∧ t.errcode = s.errcode ∧ s.sameOperands t ∧ s.sameDigest t ∧ s.samePort t) ∧
  (∀ (n : BitVec 5) s, n.toNat ≤ 16 → s.mode = .none → exec (.write n) s = .next (s.recordError .noInit)) ∧
  (∀ w s, wordOp w = 4 → (16 < wordCount w ∨ wordRsv w ≠ 0) → execute w s = .next (s.recordError .illegal))

/-- R61: byte i of the chunk is bits [8i+7:8i] of ARG0 for i ≤ 7 and of ARG1 for 8 ≤ i ≤ 15, bytes at indices ≥ n are
ignored, and (decision D4) a full chunk loads as k1 = ARG0 and k2 = ARG1. -/
def Obligations.ChunkBytesFollowTheLanes : Prop :=
  ∀ a0 a1 : Word,
    (∀ n i, i < n → i < 8 → (chunk a0 a1 n)[i]? = some (BitVec.ofNat 8 (a0.toNat / 2 ^ (8 * i)))) ∧
    (∀ n i, i < n → 8 ≤ i → i ≤ 15 →
      (chunk a0 a1 n)[i]? = some (BitVec.ofNat 8 (a1.toNat / 2 ^ (8 * (i - 8))))) ∧
    (∀ n, (chunk a0 a1 n).length = n) ∧ (∀ n b1, n ≤ 8 → chunk a0 b1 n = chunk a0 a1 n) ∧
    le64 ((chunk a0 a1 16).take 8) = a0 ∧ le64 ((chunk a0 a1 16).drop 8) = a1

/-- R163 and the source's write step quoted in R161: in a state that meets the invariant, WRITE concatenates the
chunk with the pending bytes, processes all full blocks in order, and keeps the remainder. -/
def Obligations.WriteProcessesAllFullBlocks : Prop :=
  ∀ (n : BitVec 5) (s : State), n.toNat ≤ 16 → s.Inv →
    (s.mode = .m32 → ∃ t : State, exec (.write n) s = .next t ∧
      t.h1 = (blocks32 (s.h1.setWidth 32) (s.pend ++ chunk s.arg0 s.arg1 n.toNat)).setWidth 64 ∧ t.h2 = s.h2 ∧
      t.pend = (s.pend ++ chunk s.arg0 s.arg1 n.toNat).drop (4 * ((s.blen.toNat + n.toNat) / 4)) ∧
      t.blen.toNat = (s.blen.toNat + n.toNat) % 4) ∧
    (s.mode = .m128 → ∃ t : State, exec (.write n) s = .next t ∧
      (t.h1, t.h2) = blocks128 s.h1 s.h2 (s.pend ++ chunk s.arg0 s.arg1 n.toNat) ∧
      t.pend = (s.pend ++ chunk s.arg0 s.arg1 n.toNat).drop (16 * ((s.blen.toNat + n.toNat) / 16)) ∧
      t.blen.toNat = (s.blen.toNat + n.toNat) % 16)

/-! ### Whole-machine rules -/

/-- The reset state meets the invariants of R36 and R38. -/
def Obligations.ResetMeetsTheInvariant : Prop := State.reset.Inv

/-- R36 and R38: every step from a state that meets the buffer invariant and the M32 invariant ends in one that
does. -/
def Obligations.StepKeepsTheInvariant : Prop :=
  ∀ s t : State, s.Inv → step s = .next t → t.Inv

/-- R24: an access changes MODE only by INIT32 (to M32) or by INIT128 or INIT64 (to M128), so only a reset writes
NONE. -/
def Obligations.ModeChangesOnlyByInit : Prop :=
  ∀ s e es t, s.port = e :: es → step s = .next t →
    (e = .reset → t.mode = .none) ∧
    (issuedCommand e = some .init32 → t.mode = .m32) ∧
    (issuedCommand e = some .init128 ∨ issuedCommand e = some .init64 → t.mode = .m128) ∧
    (restarts e = false → t.mode = s.mode)

/-- R31, R32 and R225: DIG0 and DIG1 change only at a successful SUM, or a reset. -/
def Obligations.DigestChangesOnlyBySuccessfulSum : Prop :=
  ∀ s e es t, s.port = e :: es → step s = .next t → ¬ s.sameDigest t →
    e = .reset ∨ (issuedCommand e = some .sum32 ∧ s.mode = .m32) ∨
    (issuedCommand e = some .sum128 ∧ s.mode = .m128)

/-- R28 and R29: no command writes ARG0 or ARG1; they change only by a legal host write of them, which stores its
value, or by a reset. -/
def Obligations.ArgumentsChangeOnlyByHostWrite : Prop :=
  ∀ s e es t, s.port = e :: es → step s = .next t → (t.arg0, t.arg1) = argsAfter e s.arg0 s.arg1

/-- R27: a WRITE in a bound core adds its count to LEN modulo 2^64, an INIT and a reset set LEN to 0, and nothing
else changes it; Final32 takes LEN[31:0] of it. -/
def Obligations.LenCountsTheBytesWritten : Prop :=
  (∀ s e es t, s.port = e :: es → step s = .next t →
    (restarts e = true → t.len = 0) ∧
    (restarts e = false → s.mode = .none → t.len = s.len) ∧
    (restarts e = false → s.mode ≠ .none →
      t.len.toNat = (s.len.toNat + (bytesWritten e s.arg0 s.arg1).length) % 2 ^ 64)) ∧
  (∀ h t (l l' : Word), l.toNat % 2 ^ 32 = l'.toNat % 2 ^ 32 → final32 h t l = final32 h t l')

/-- R37 and R39: H1, H2 and the bytes of BUF that no rule reads cannot be observed. Two states that agree on all
else return the same values in every run, and agree on all else after it. -/
def Obligations.HiddenStateIsUnobservable : Prop :=
  ∀ (k : Nat) (s s' : State), s.looksLike s' →
    ∃ t t' : State, Host.Core.run Sys2Proof.core k s = .next t ∧ Host.Core.run Sys2Proof.core k s' = .next t' ∧
      t.looksLike t' ∧ t'.reads = t.reads

/-! ### Streaming laws -/

/-- R164 for the 32-bit engine: after INIT32, whatever accesses follow (SUMs, reads, failed accesses and writes cut
in any way among them) as long as no INIT and no reset does, SUM32 gives the one-shot digest of the message written. -/
def Obligations.Streaming32IsOneShot : Prop :=
  ∀ (s : State) (h h' : Nat) (es rest : List Event), (∀ e ∈ es, restarts e = false) →
    s.port = issue h .init32 :: (es ++ issue h' .sum32 :: rest) →
    ∃ t : State, Host.Core.run Sys2Proof.core (es.length + 2) s = .next t ∧ t.port = rest ∧
      t.dig0 = (digest32 (s.arg0.setWidth 32) (messageOf es s.arg0 s.arg1)).setWidth 64 ∧ t.dig1 = 0

/-- R164 for the 128-bit engine. -/
def Obligations.Streaming128IsOneShot : Prop :=
  ∀ (s : State) (h h' : Nat) (es rest : List Event), (∀ e ∈ es, restarts e = false) →
    s.port = issue h .init128 :: (es ++ issue h' .sum128 :: rest) →
    ∃ t : State, Host.Core.run Sys2Proof.core (es.length + 2) s = .next t ∧ t.port = rest ∧
      (t.dig0, t.dig1) = digest128 s.arg0 s.arg1 (messageOf es s.arg0 s.arg1)

/-- R164 for the 64-bit digest. -/
def Obligations.Streaming64IsOneShot : Prop :=
  ∀ (s : State) (h h' : Nat) (es rest : List Event), (∀ e ∈ es, restarts e = false) →
    s.port = issue h .init64 :: (es ++ issue h' .sum128 :: rest) →
    ∃ t : State, Host.Core.run Sys2Proof.core (es.length + 2) s = .next t ∧ t.port = rest ∧
      t.dig0 = digest64 s.arg0 (messageOf es s.arg0 s.arg1)

/-- R166: only the concatenation counts. From one bound state, two sequences of accesses that write the same message
leave the same stream, however the message is cut. -/
def Obligations.ChunkBoundariesDoNotMatter : Prop :=
  ∀ (s s' : State) (es es' : List Event), s' = s.setPort es' → s.port = es → s.mode ≠ .none →
    (∀ e ∈ es ++ es', restarts e = false) → messageOf es s.arg0 s.arg1 = messageOf es' s.arg0 s.arg1 →
    ∃ t t' : State, Host.Core.run Sys2Proof.core es.length s = .next t ∧
      Host.Core.run Sys2Proof.core es'.length s' = .next t' ∧ t.sameStream t'

/-- R165: two SUMs with no INIT, no reset and no WRITE between them give the same digest; and a digest produced does
not enter what follows: two states that differ only in DIG0 and DIG1 take the same steps. -/
def Obligations.SumIsASnapshot : Prop :=
  (∀ (s : State) (h h' : Nat) (i : Instr) (es rest : List Event),
    (s.mode = .m32 ∧ i = .sum32) ∨ (s.mode = .m128 ∧ i = .sum128) →
    (∀ e ∈ es, restarts e = false ∧ ∀ n, issuedCommand e ≠ some (.write n)) →
    s.port = issue h i :: (es ++ issue h' i :: rest) →
    ∃ t u : State, step s = .next t ∧ Host.Core.run Sys2Proof.core (es.length + 2) s = .next u ∧ t.sameDigest u) ∧
  (∀ s e d0 d1, ∃ t t' : State, perform e s = .next t ∧ perform e (s.setDigest d0 d1) = .next t' ∧
    { t' with dig0 := t.dig0, dig1 := t.dig1, reads := t.reads } = t)

/-- R94: the pseudo-instruction hash32 returns the 32-bit digest of any message, from any state. -/
def Obligations.Hash32ReturnsTheDigest : Prop :=
  ∀ (s : State) (h : Nat) (seed : Word32) (m : List Byte) (rest : List Event),
    s.port = hash32Accesses h seed m ++ rest →
    ∃ t : State, Host.Core.run Sys2Proof.core (hash32Accesses h seed m).length s = .next t ∧ t.port = rest ∧
      t.reads = s.reads ++ [⟨h, (digest32 seed m).setWidth 64⟩]

/-- R94: hash64 returns the 64-bit digest and hash128 both words of the 128-bit digest of any message, from any
state. -/
def Obligations.Hash64AndHash128ReturnTheDigest : Prop :=
  (∀ (s : State) (h : Nat) (seed : Word) (m : List Byte) (rest : List Event),
    s.port = hash64Accesses h seed m ++ rest →
    ∃ t : State, Host.Core.run Sys2Proof.core (hash64Accesses h seed m).length s = .next t ∧ t.port = rest ∧
      t.reads = s.reads ++ [⟨h, digest64 seed m⟩]) ∧
  (∀ (s : State) (h : Nat) (s1 s2 : Word) (m : List Byte) (rest : List Event),
    s.port = hash128Accesses h s1 s2 m ++ rest →
    ∃ t : State, Host.Core.run Sys2Proof.core (hash128Accesses h s1 s2 m).length s = .next t ∧ t.port = rest ∧
      t.reads = s.reads ++ [⟨h, (digest128 s1 s2 m).1⟩, ⟨h, (digest128 s1 s2 m).2⟩])

/-! ### The engines' functions -/

/-- R100: Mix32 by its formula, and it is a bijection on u32 with Mix32(0) = 0. -/
def Obligations.Mix32IsABijection : Prop :=
  (∀ k : Word32, mix32 k = (k * 0xcc9e2d51).rotateLeft 15 * 0x1b873593) ∧ Function.Bijective mix32 ∧ mix32 0 = 0

/-- R104: Fmix32 is a bijection on u32 with Fmix32(0) = 0. -/
def Obligations.Fmix32IsABijection : Prop := Function.Bijective fmix32 ∧ fmix32 0 = 0

/-- R101 and R102: Block32 loads its four bytes with the first least significant. -/
def Obligations.Block32IsLittleEndian : Prop :=
  ∀ (h : Word32) (b0 b1 b2 b3 : Byte),
    le32 [b0, b1, b2, b3] = b0.setWidth 32 ||| (b1.setWidth 32 <<< 8) ||| (b2.setWidth 32 <<< 16) |||
      (b3.setWidth 32 <<< 24) ∧
    block32 h [b0, b1, b2, b3] = (h ^^^ mix32 (b3 ++ b2 ++ b1 ++ b0)).rotateLeft 13 * 5 + 0xe6546b64

/-- R103 and R105: the tail of the 32-bit engine is packed little-endian and right-aligned, mixed and XORed with no
rotate, multiply or add; then the low 32 bits of the length enter and the avalanche runs. -/
def Obligations.Final32PacksTheTailLittleEndian : Prop :=
  ∀ (h : Word32) (t0 t1 t2 : Byte) (l : Word),
    final32 h [] l = fmix32 (h ^^^ l.setWidth 32) ∧
    final32 h [t0] l = fmix32 (h ^^^ mix32 (t0.setWidth 32) ^^^ l.setWidth 32) ∧
    final32 h [t0, t1] l = fmix32 (h ^^^ mix32 (t0.setWidth 32 ||| (t1.setWidth 32 <<< 8)) ^^^ l.setWidth 32) ∧
    final32 h [t0, t1, t2] l = fmix32 (h ^^^
      mix32 (t0.setWidth 32 ||| (t1.setWidth 32 <<< 8) ||| (t2.setWidth 32 <<< 16)) ^^^ l.setWidth 32)

/-- R133 and R134: Block128 on a block written as two words; the h2 update reads the new h1. -/
def Obligations.Block128UpdatesH2FromTheNewH1 : Prop :=
  ∀ h1 h2 k1 k2 n1 : Word,
    n1 = ((h1 ^^^ (k1 * 0x87c37b91114253d5).rotateLeft 31 * 0x4cf5ad432745937f).rotateLeft 27 + h2) * 5 + 0x52dce729 →
    block128 h1 h2 (chunk k1 k2 16) = (n1,
      ((h2 ^^^ (k2 * 0x4cf5ad432745937f).rotateLeft 33 * 0x87c37b91114253d5).rotateLeft 31 + n1) * 5 + 0x38495ab5)

/-- R135: of a tail of m bytes, bytes 0 to 7 enter h1 and bytes 8 to 14 enter h2, each group little-endian with zero
high bytes; an empty group leaves its accumulator as it is. The tail is the first m bytes of two words. -/
def Obligations.Tail128SplitsAtByteEight : Prop :=
  ∀ (h1 h2 k1 k2 : Word) (m : Nat), m ≤ 15 →
    (m = 0 → tail128 h1 h2 (chunk k1 k2 m) = (h1, h2)) ∧
    (0 < m → m ≤ 8 → tail128 h1 h2 (chunk k1 k2 m) =
      (h1 ^^^ mixK1 (BitVec.ofNat 64 (k1.toNat % 2 ^ (8 * m))), h2)) ∧
    (8 < m → tail128 h1 h2 (chunk k1 k2 m) =
      (h1 ^^^ mixK1 k1, h2 ^^^ mixK2 (BitVec.ofNat 64 (k2.toNat % 2 ^ (8 * (m - 8))))))

/-- R109: the laws of the 32-bit engine on the empty input and on up to three zero bytes. -/
def Obligations.Digest32OfNothingAndOfZeros : Prop :=
  (∀ s : Word32, digest32 s [] = fmix32 s) ∧
  (∀ (s : Word32) (m : Nat), m ≤ 3 → digest32 s (List.replicate m 0) = fmix32 (s ^^^ BitVec.ofNat 32 m)) ∧
  digest32 1 [0x00] = 0 ∧ digest32 0 [0x00] = 0x514e28b7 ∧ digest32 0 [0x00, 0x00] = 0x30f4c306

/-- R144: the laws of the 128-bit engine on the empty input and on a tail of at most eight bytes. -/
def Obligations.Digest128OfNothing : Prop :=
  (∀ s1 s2 : Word, digest128 s1 s2 [] =
    (fmix64 (s1 + s2) + fmix64 (s1 + 2 * s2), fmix64 (s1 + s2) + 2 * fmix64 (s1 + 2 * s2))) ∧
  digest128 0 0 [] = (0, 0) ∧ digest128 1 1 [] = digest128 0 0 [0x00] ∧
  digest128 1 1 [] = (0x4610abe56eff5cb5, 0x51622daa78f83583) ∧
  (∀ (h1 h2 : Word) (t : List Byte), t.length ≤ 8 → (tail128 h1 h2 t).2 = h2)

/-- R62: the digest bytes are the digest words, each big-endian, DIG0 first. -/
def Obligations.DigestBytesAreBigEndian : Prop :=
  ∀ s : State, (bytes32 s).length = 4 ∧ (bytes64 s).length = 8 ∧ bytes128 s = bytes64 s ++ beBytes 8 s.dig1.toNat ∧
    (∀ i, i < 4 → (bytes32 s)[i]? = some (s.dig0.extractLsb' (8 * (3 - i)) 8)) ∧
    (∀ i, i < 8 → (bytes64 s)[i]? = some (s.dig0.extractLsb' (8 * (7 - i)) 8)) ∧
    (∀ i, i < 8 → (bytes128 s)[8 + i]? = some (s.dig1.extractLsb' (8 * (7 - i)) 8))

/-! ### Several instances -/

/-- R203: on a well-formed platform every bus access completes; the instance whose window holds the address performs
it, and no access ever changes another instance or a base. -/
def Obligations.InstancesAreIndependent : Prop :=
  ∀ (p : List Instance) (a : BusAccess), platformWf p = true → ∃ q, busAccess a p = .next q ∧
    q.length = p.length ∧
    ∀ (j : Nat) (x : Instance), p[j]? = some x →
      (∀ off : Fin 64, x.base + off.val = a.addr → ∃ t,
        performAccess ⟨a.host, off, a.size, a.transfer⟩ x.core = .next t ∧ q[j]? = some ⟨x.base, t⟩) ∧
      ((a.addr < x.base ∨ x.base + 64 ≤ a.addr) → q[j]? = some x)
end

