-- ==== Sys2Proof/Laws/Bits.lean ====
section
/-! SUPPORT. Little-endian composition, big-endian serialization and chunk bytes as numbers. -/

namespace Sys2Proof.Machine

theorem leNat_lt (bs : List Byte) : leNat bs < 256 ^ bs.length := by
  induction bs with
  | nil => simp [leNat]
  | cons b bs ih =>
    have := b.isLt
    rw [leNat, List.length_cons, Nat.pow_succ]
    omega

theorem leNat_append (as bs : List Byte) : leNat (as ++ bs) = leNat as + 256 ^ as.length * leNat bs := by
  induction as with
  | nil => simp [leNat]
  | cons a as ih =>
    rw [List.cons_append, leNat, leNat, ih, List.length_cons, Nat.pow_succ]
    ring

/-- The first `n` bytes of a number, least significant first, compose to the number modulo 2^(8n). -/
theorem leNat_bytes (v : Nat) (n : Nat) :
    leNat ((List.range n).map (fun i => BitVec.ofNat 8 (v / 256 ^ i))) = v % 256 ^ n := by
  induction n with
  | zero => simp [leNat, Nat.mod_one]
  | succ n ih =>
    rw [List.range_succ, List.map_append, leNat_append, ih]
    simp only [List.length_map, List.length_range, List.map_cons, List.map_nil, leNat, BitVec.toNat_ofNat,
      Nat.mul_zero, Nat.add_zero]
    rw [show v % 256 ^ (n + 1) = v % (256 ^ n * 256) by rw [Nat.pow_succ], Nat.mod_mul]

theorem beBytes_length (n v : Nat) : (beBytes n v).length = n := by
  induction n with
  | zero => rfl
  | succ n ih => rw [beBytes, List.length_cons, ih]

theorem beBytes_getElem? (n v i : Nat) (h : i < n) :
    (beBytes n v)[i]? = some (BitVec.ofNat 8 (v / 256 ^ (n - 1 - i))) := by
  induction n generalizing i with
  | zero => omega
  | succ n ih =>
    cases i with
    | zero => simp [beBytes]
    | succ i =>
      rw [beBytes, List.getElem?_cons_succ, ih i (by omega)]
      rw [show n + 1 - 1 - (i + 1) = n - 1 - i by omega]

/-- Byte `i` of a u64, as bits and as a number. -/
theorem byte_of_word (v : Word) (i : Nat) : v.extractLsb' (8 * i) 8 = BitVec.ofNat 8 (v.toNat / 256 ^ i) := by
  apply BitVec.eq_of_toNat_eq
  simp only [BitVec.extractLsb'_toNat, BitVec.toNat_ofNat, Nat.shiftRight_eq_div_pow]
  rw [Nat.pow_mul]

/-- The first eight chunk bytes are the bytes of ARG0. -/
theorem chunk_le_eight (a0 a1 : Word) (n : Nat) (h : n ≤ 8) :
    chunk a0 a1 n = (List.range n).map (fun i => BitVec.ofNat 8 (a0.toNat / 256 ^ i)) := by
  unfold chunk
  apply List.map_congr_left
  intro i hi
  rw [List.mem_range] at hi
  rw [chunkByte, if_pos (by omega), byte_of_word]

/-- Chunk bytes from the ninth on are the bytes of ARG1. -/
theorem chunk_add_eight (a0 a1 : Word) (n : Nat) :
    chunk a0 a1 (8 + n) = chunk a0 a1 8 ++ (List.range n).map (fun i => BitVec.ofNat 8 (a1.toNat / 256 ^ i)) := by
  unfold chunk
  rw [List.range_add, List.map_append, List.map_map]
  congr 1
  apply List.map_congr_left
  intro i _
  simp only [Function.comp_apply, chunkByte, if_neg (show ¬ 8 + i < 8 by omega), Nat.add_sub_cancel_left, byte_of_word]

/-- The bytes of at most eight bytes composed little-endian are those bytes (20_memory.md R61). -/
theorem le64_bytes (bs : List Byte) (h : bs.length ≤ 8) :
    (List.range bs.length).map (fun i => BitVec.ofNat 8 ((le64 bs).toNat / 256 ^ i)) = bs := by
  have hl : (le64 bs).toNat = leNat bs := by
    have := leNat_lt bs
    have h2 : 256 ^ bs.length ≤ 256 ^ 8 := Nat.pow_le_pow_right (by omega) h
    simp only [le64, BitVec.toNat_ofNat]
    omega
  rw [hl]
  clear hl h
  induction bs with
  | nil => rfl
  | cons b bs ih =>
    rw [List.length_cons, List.range_succ_eq_map, List.map_cons, List.map_map]
    have hb := b.isLt
    congr 1
    · apply BitVec.eq_of_toNat_eq
      simp [leNat]
      omega
    · have : ((fun i => BitVec.ofNat 8 (leNat (b :: bs) / 256 ^ i)) ∘ Nat.succ) =
          (fun i => BitVec.ofNat 8 (leNat bs / 256 ^ i)) := by
        funext i
        simp only [Function.comp_apply, Nat.succ_eq_add_one, Nat.pow_succ, leNat]
        rw [Nat.mul_comm (256 ^ i) 256, ← Nat.div_div_eq_div_mul,
          show (b.toNat + 256 * leNat bs) / 256 = leNat bs by omega]
      rw [this, ih]

/-- A chunk loaded as `data` loads it (30_encoding.md R94) is the bytes loaded. -/
theorem chunk_of_bytes (bs : List Byte) (x : Word) (h : bs.length ≤ 16) :
    chunk (le64 (bs.take 8)) (if 8 < bs.length then le64 (bs.drop 8) else x) bs.length = bs := by
  by_cases h8 : bs.length ≤ 8
  · rw [chunk_le_eight _ _ _ h8, List.take_of_length_le h8]
    exact le64_bytes bs h8
  · rw [if_pos (by omega)]
    obtain ⟨k, hk⟩ : ∃ k, bs.length = 8 + k := ⟨bs.length - 8, by omega⟩
    rw [hk, chunk_add_eight, chunk_le_eight _ _ _ (by omega)]
    have h1 := le64_bytes (bs.take 8) (by simp)
    have h2 := le64_bytes (bs.drop 8) (by simp; omega)
    rw [show (bs.take 8).length = 8 by simp; omega] at h1
    rw [show (bs.drop 8).length = k by simp; omega] at h2
    rw [h1, h2, List.take_append_drop]

end Sys2Proof.Machine
end

