-- ==== Sys2Proof/Laws/Decode.lean ====
section
/-! SUPPORT. The fields of a command word as numbers, and what decoding and encoding do to them. -/

namespace Sys2Proof.Machine

@[simp] theorem opField_toNat (w : Word) : (opField w).toNat = wordOp w := by
  simp [opField, wordOp]

@[simp] theorem countField_toNat (w : Word) : (countField w).toNat = wordCount w := by
  simp [countField, wordCount, Nat.shiftRight_eq_div_pow]

@[simp] theorem rsvField_toNat (w : Word) : (rsvField w).toNat = wordRsv w := by
  have := w.isLt
  simp only [rsvField, wordRsv, BitVec.extractLsb'_toNat, Nat.shiftRight_eq_div_pow]
  omega

theorem word_eq_fields (w : Word) : w.toNat = wordOp w + 256 * wordCount w + 8192 * wordRsv w := by
  simp only [wordOp, wordCount, wordRsv]
  omega

/-- The word of a command is its OP and its N; RSV is 0. -/
theorem encode_toNat (i : Instr) : (encode i).toNat = i.opcode.toNat + 256 * i.count.toNat := by
  have h1 := i.opcode.isLt
  have h2 := i.count.isLt
  have h3 : i.count.toNat <<< 8 ||| i.opcode.toNat = i.count.toNat <<< 8 + i.opcode.toNat :=
    Nat.shiftLeft_add_eq_or_of_lt h1 _ |>.symm
  simp only [encode, BitVec.toNat_or, BitVec.toNat_shiftLeft, BitVec.toNat_setWidth]
  rw [Nat.mod_eq_of_lt (by omega : i.opcode.toNat < 2 ^ 64), Nat.mod_eq_of_lt (by omega : i.count.toNat < 2 ^ 64)]
  have h4 : i.count.toNat <<< 8 = i.count.toNat * 256 := by simp [Nat.shiftLeft_eq]
  rw [Nat.mod_eq_of_lt (by omega), Nat.or_comm, h3]
  omega

/-- A word that is not reserved is a command, the one of its OP and N. -/
theorem decode_of_not_reserved (w : Word) (h : ¬ wordReserved w) :
    ∃ i, decode w = .ok i ∧ i.wf = true ∧ i.opcode.toNat = wordOp w ∧ i.count.toNat = wordCount w := by
  simp only [wordReserved, not_or, not_and] at h
  obtain ⟨h1, h2, h3, h4⟩ := h
  have hr : rsvField w = 0 := by
    apply BitVec.eq_of_toNat_eq
    rw [rsvField_toNat]
    simpa using h4
  have hc : (opField w).toNat ≠ 4 → countField w = 0 := by
    intro h5
    apply BitVec.eq_of_toNat_eq
    rw [countField_toNat]
    rw [opField_toNat] at h5
    have := h3 h5
    simpa using this
  have hd : decode w = opcodeCommand (opField w) (countField w) := by
    unfold decode
    rw [if_neg (by simpa using h1), if_neg (by simp [hr]), if_neg (by simpa using hc), if_neg]
    simp only [opField_toNat, countField_toNat]
    omega
  rw [hd]
  unfold opcodeCommand
  have hop := opField_toNat w
  by_cases h5 : (opField w).toNat = 4
  · refine ⟨.write (countField w), by simp [h5], ?_, ?_, ?_⟩
    · simp only [Instr.wf, countField_toNat, decide_eq_true_eq]
      omega
    · rw [← opField_toNat, h5]; rfl
    · simp [Instr.count]
  · have h6 : wordCount w = 0 := by rw [← countField_toNat, hc h5]; rfl
    rw [h6, ← opField_toNat]
    have h7 : (opField w).toNat < 8 := by rw [opField_toNat]; omega
    generalize (opField w).toNat = k at *
    interval_cases k
    · exact ⟨.nop, rfl, rfl, rfl, rfl⟩
    · exact ⟨.init32, rfl, rfl, rfl, rfl⟩
    · exact ⟨.init128, rfl, rfl, rfl, rfl⟩
    · exact ⟨.init64, rfl, rfl, rfl, rfl⟩
    · exact absurd rfl h5
    · exact ⟨.sum32, rfl, rfl, rfl, rfl⟩
    · exact ⟨.sum128, rfl, rfl, rfl, rfl⟩
    · exact ⟨.clrerr, rfl, rfl, rfl, rfl⟩

/-- A reserved word is rejected. -/
theorem decode_of_reserved (w : Word) (h : wordReserved w) : ∃ r, decode w = .error r := by
  unfold decode
  split
  · exact ⟨_, rfl⟩
  split
  · exact ⟨_, rfl⟩
  split
  · exact ⟨_, rfl⟩
  split
  · exact ⟨_, rfl⟩
  exfalso
  rename_i h1 h2 h3 h4
  have hr : wordRsv w = 0 := by
    have : rsvField w = 0 := by simpa using h2
    rw [← rsvField_toNat, this]; rfl
  simp only [wordReserved] at h
  rw [opField_toNat] at h1 h3 h4
  rw [countField_toNat] at h4
  rcases h with h | ⟨h, h'⟩ | ⟨h, h'⟩ | h
  · omega
  · omega
  · apply h3
    refine ⟨h, fun h5 => h' ?_⟩
    rw [← countField_toNat, h5]; rfl
  · exact h hr

/-- Two commands with the same OP and N are the same. -/
theorem Instr.eq_of_fields {i j : Instr} (h1 : i.opcode = j.opcode) (h2 : i.count = j.count) : i = j := by
  cases i <;> cases j <;> first | rfl | exact congrArg Instr.write h2 | exact absurd h1 (by simp [Instr.opcode])

theorem decode_ok {w : Word} {i : Instr} (h : decode w = .ok i) :
    ¬ wordReserved w ∧ i.wf = true ∧ i.opcode.toNat = wordOp w ∧ i.count.toNat = wordCount w := by
  have h1 : ¬ wordReserved w := fun h2 => by
    obtain ⟨r, hr⟩ := decode_of_reserved w h2
    rw [hr] at h
    cases h
  obtain ⟨j, hj, h3⟩ := decode_of_not_reserved w h1
  rw [hj] at h
  cases h
  exact ⟨h1, h3⟩

end Sys2Proof.Machine
end

