-- ==== Sys2Proof/Laws/PerInstr.lean ====
section
/-! SUPPORT. A law made per command: the fields of its word (30_encoding.md R81, R83, R84, R88). -/

namespace Sys2Proof.Laws.EncodedFields

open Sys2Proof.Machine

/-- OP is assigned, RSV is 0, and N is the count, so the word of a well-formed command is not reserved. -/
def Statement (i : Instr) : Prop :=
  wordOp (encode i) = i.opcode.toNat ∧ wordCount (encode i) = i.count.toNat ∧ wordRsv (encode i) = 0 ∧
    (i.wf = true → ¬ wordReserved (encode i))

theorem of_fields (i : Instr) (h : i.opcode.toNat < 8)
    (hc : i.wf = true → (i.opcode.toNat = 4 → i.count.toNat ≤ 16) ∧ (i.opcode.toNat ≠ 4 → i.count.toNat = 0)) :
    Statement i := by
  have h1 := encode_toNat i
  have h2 := i.count.isLt
  have h3 : wordOp (encode i) = i.opcode.toNat := by rw [wordOp, h1]; omega
  have h4 : wordCount (encode i) = i.count.toNat := by rw [wordCount, h1]; omega
  have h5 : wordRsv (encode i) = 0 := by rw [wordRsv, h1]; omega
  refine ⟨h3, h4, h5, fun hw => ?_⟩
  obtain ⟨c1, c2⟩ := hc hw
  rw [wordReserved, h3, h4, h5]
  omega

theorem nop : Statement .nop := of_fields _ (by decide) (by decide)
theorem init32 : Statement .init32 := of_fields _ (by decide) (by decide)
theorem init128 : Statement .init128 := of_fields _ (by decide) (by decide)
theorem init64 : Statement .init64 := of_fields _ (by decide) (by decide)
theorem write (n : BitVec 5) : Statement (.write n) :=
  of_fields _ (show (4 : Nat) < 8 by decide) (fun h => ⟨fun _ => of_decide_eq_true h, fun h4 => absurd rfl h4⟩)
theorem sum32 : Statement .sum32 := of_fields _ (by decide) (by decide)
theorem sum128 : Statement .sum128 := of_fields _ (by decide) (by decide)
theorem clrerr : Statement .clrerr := of_fields _ (by decide) (by decide)

end Sys2Proof.Laws.EncodedFields
end

