-- ==== Sys2Proof/Laws/State.lean ====
section
/-! SUPPORT. One lemma per field per named update of State, each true by rfl.
The proofs stand in parentheses so that simp cites the lemma instead of comparing the two states by reduction: the
kernel would otherwise compare the updated fields too, and a digest does not reduce. -/

namespace Sys2Proof.Machine

@[simp] theorem recordError_mode (s : State) (c : ErrCode) : (s.recordError c).mode = s.mode := (rfl)
@[simp] theorem recordError_errcode (s : State) (c : ErrCode) : (s.recordError c).errcode = if s.errcode = .none then c else s.errcode := (rfl)
@[simp] theorem recordError_arg0 (s : State) (c : ErrCode) : (s.recordError c).arg0 = s.arg0 := (rfl)
@[simp] theorem recordError_arg1 (s : State) (c : ErrCode) : (s.recordError c).arg1 = s.arg1 := (rfl)
@[simp] theorem recordError_dig0 (s : State) (c : ErrCode) : (s.recordError c).dig0 = s.dig0 := (rfl)
@[simp] theorem recordError_dig1 (s : State) (c : ErrCode) : (s.recordError c).dig1 = s.dig1 := (rfl)
@[simp] theorem recordError_len (s : State) (c : ErrCode) : (s.recordError c).len = s.len := (rfl)
@[simp] theorem recordError_h1 (s : State) (c : ErrCode) : (s.recordError c).h1 = s.h1 := (rfl)
@[simp] theorem recordError_h2 (s : State) (c : ErrCode) : (s.recordError c).h2 = s.h2 := (rfl)
@[simp] theorem recordError_buf (s : State) (c : ErrCode) : (s.recordError c).buf = s.buf := (rfl)
@[simp] theorem recordError_blen (s : State) (c : ErrCode) : (s.recordError c).blen = s.blen := (rfl)
@[simp] theorem recordError_draws (s : State) (c : ErrCode) : (s.recordError c).draws = s.draws := (rfl)
@[simp] theorem recordError_port (s : State) (c : ErrCode) : (s.recordError c).port = s.port := (rfl)
@[simp] theorem recordError_reads (s : State) (c : ErrCode) : (s.recordError c).reads = s.reads := (rfl)

@[simp] theorem clearError_mode (s : State) : s.clearError.mode = s.mode := (rfl)
@[simp] theorem clearError_errcode (s : State) : s.clearError.errcode = .none := (rfl)
@[simp] theorem clearError_arg0 (s : State) : s.clearError.arg0 = s.arg0 := (rfl)
@[simp] theorem clearError_arg1 (s : State) : s.clearError.arg1 = s.arg1 := (rfl)
@[simp] theorem clearError_dig0 (s : State) : s.clearError.dig0 = s.dig0 := (rfl)
@[simp] theorem clearError_dig1 (s : State) : s.clearError.dig1 = s.dig1 := (rfl)
@[simp] theorem clearError_len (s : State) : s.clearError.len = s.len := (rfl)
@[simp] theorem clearError_h1 (s : State) : s.clearError.h1 = s.h1 := (rfl)
@[simp] theorem clearError_h2 (s : State) : s.clearError.h2 = s.h2 := (rfl)
@[simp] theorem clearError_buf (s : State) : s.clearError.buf = s.buf := (rfl)
@[simp] theorem clearError_blen (s : State) : s.clearError.blen = s.blen := (rfl)
@[simp] theorem clearError_draws (s : State) : s.clearError.draws = s.draws := (rfl)
@[simp] theorem clearError_port (s : State) : s.clearError.port = s.port := (rfl)
@[simp] theorem clearError_reads (s : State) : s.clearError.reads = s.reads := (rfl)

@[simp] theorem emptyBuffer_mode (s : State) : s.emptyBuffer.mode = s.mode := (rfl)
@[simp] theorem emptyBuffer_errcode (s : State) : s.emptyBuffer.errcode = s.errcode := (rfl)
@[simp] theorem emptyBuffer_arg0 (s : State) : s.emptyBuffer.arg0 = s.arg0 := (rfl)
@[simp] theorem emptyBuffer_arg1 (s : State) : s.emptyBuffer.arg1 = s.arg1 := (rfl)
@[simp] theorem emptyBuffer_dig0 (s : State) : s.emptyBuffer.dig0 = s.dig0 := (rfl)
@[simp] theorem emptyBuffer_dig1 (s : State) : s.emptyBuffer.dig1 = s.dig1 := (rfl)
@[simp] theorem emptyBuffer_len (s : State) : s.emptyBuffer.len = s.len := (rfl)
@[simp] theorem emptyBuffer_h1 (s : State) : s.emptyBuffer.h1 = s.h1 := (rfl)
@[simp] theorem emptyBuffer_h2 (s : State) : s.emptyBuffer.h2 = s.h2 := (rfl)
@[simp] theorem emptyBuffer_buf (s : State) : s.emptyBuffer.buf = Config.freeBuf s.draws := (rfl)
@[simp] theorem emptyBuffer_blen (s : State) : s.emptyBuffer.blen = 0 := (rfl)
@[simp] theorem emptyBuffer_draws (s : State) : s.emptyBuffer.draws = s.draws + 1 := (rfl)
@[simp] theorem emptyBuffer_port (s : State) : s.emptyBuffer.port = s.port := (rfl)
@[simp] theorem emptyBuffer_reads (s : State) : s.emptyBuffer.reads = s.reads := (rfl)

@[simp] theorem startStream_mode (s : State) (m : Mode) (x1 x2 : Word) : (s.startStream m x1 x2).mode = m := (rfl)
@[simp] theorem startStream_errcode (s : State) (m : Mode) (x1 x2 : Word) : (s.startStream m x1 x2).errcode = s.errcode := (rfl)
@[simp] theorem startStream_arg0 (s : State) (m : Mode) (x1 x2 : Word) : (s.startStream m x1 x2).arg0 = s.arg0 := (rfl)
@[simp] theorem startStream_arg1 (s : State) (m : Mode) (x1 x2 : Word) : (s.startStream m x1 x2).arg1 = s.arg1 := (rfl)
@[simp] theorem startStream_dig0 (s : State) (m : Mode) (x1 x2 : Word) : (s.startStream m x1 x2).dig0 = s.dig0 := (rfl)
@[simp] theorem startStream_dig1 (s : State) (m : Mode) (x1 x2 : Word) : (s.startStream m x1 x2).dig1 = s.dig1 := (rfl)
@[simp] theorem startStream_len (s : State) (m : Mode) (x1 x2 : Word) : (s.startStream m x1 x2).len = 0 := (rfl)
@[simp] theorem startStream_h1 (s : State) (m : Mode) (x1 x2 : Word) : (s.startStream m x1 x2).h1 = x1 := (rfl)
@[simp] theorem startStream_h2 (s : State) (m : Mode) (x1 x2 : Word) : (s.startStream m x1 x2).h2 = x2 := (rfl)
@[simp] theorem startStream_buf (s : State) (m : Mode) (x1 x2 : Word) : (s.startStream m x1 x2).buf = Config.freeBuf s.draws := (rfl)
@[simp] theorem startStream_blen (s : State) (m : Mode) (x1 x2 : Word) : (s.startStream m x1 x2).blen = 0 := (rfl)
@[simp] theorem startStream_draws (s : State) (m : Mode) (x1 x2 : Word) : (s.startStream m x1 x2).draws = s.draws + 1 := (rfl)
@[simp] theorem startStream_port (s : State) (m : Mode) (x1 x2 : Word) : (s.startStream m x1 x2).port = s.port := (rfl)
@[simp] theorem startStream_reads (s : State) (m : Mode) (x1 x2 : Word) : (s.startStream m x1 x2).reads = s.reads := (rfl)

@[simp] theorem setAccumulators_mode (s : State) (x1 x2 : Word) : (s.setAccumulators x1 x2).mode = s.mode := (rfl)
@[simp] theorem setAccumulators_errcode (s : State) (x1 x2 : Word) : (s.setAccumulators x1 x2).errcode = s.errcode := (rfl)
@[simp] theorem setAccumulators_arg0 (s : State) (x1 x2 : Word) : (s.setAccumulators x1 x2).arg0 = s.arg0 := (rfl)
@[simp] theorem setAccumulators_arg1 (s : State) (x1 x2 : Word) : (s.setAccumulators x1 x2).arg1 = s.arg1 := (rfl)
@[simp] theorem setAccumulators_dig0 (s : State) (x1 x2 : Word) : (s.setAccumulators x1 x2).dig0 = s.dig0 := (rfl)
@[simp] theorem setAccumulators_dig1 (s : State) (x1 x2 : Word) : (s.setAccumulators x1 x2).dig1 = s.dig1 := (rfl)
@[simp] theorem setAccumulators_len (s : State) (x1 x2 : Word) : (s.setAccumulators x1 x2).len = s.len := (rfl)
@[simp] theorem setAccumulators_h1 (s : State) (x1 x2 : Word) : (s.setAccumulators x1 x2).h1 = x1 := (rfl)
@[simp] theorem setAccumulators_h2 (s : State) (x1 x2 : Word) : (s.setAccumulators x1 x2).h2 = x2 := (rfl)
@[simp] theorem setAccumulators_buf (s : State) (x1 x2 : Word) : (s.setAccumulators x1 x2).buf = s.buf := (rfl)
@[simp] theorem setAccumulators_blen (s : State) (x1 x2 : Word) : (s.setAccumulators x1 x2).blen = s.blen := (rfl)
@[simp] theorem setAccumulators_draws (s : State) (x1 x2 : Word) : (s.setAccumulators x1 x2).draws = s.draws := (rfl)
@[simp] theorem setAccumulators_port (s : State) (x1 x2 : Word) : (s.setAccumulators x1 x2).port = s.port := (rfl)
@[simp] theorem setAccumulators_reads (s : State) (x1 x2 : Word) : (s.setAccumulators x1 x2).reads = s.reads := (rfl)

@[simp] theorem putByte_mode (s : State) (b : Byte) : (s.putByte b).mode = s.mode := (rfl)
@[simp] theorem putByte_errcode (s : State) (b : Byte) : (s.putByte b).errcode = s.errcode := (rfl)
@[simp] theorem putByte_arg0 (s : State) (b : Byte) : (s.putByte b).arg0 = s.arg0 := (rfl)
@[simp] theorem putByte_arg1 (s : State) (b : Byte) : (s.putByte b).arg1 = s.arg1 := (rfl)
@[simp] theorem putByte_dig0 (s : State) (b : Byte) : (s.putByte b).dig0 = s.dig0 := (rfl)
@[simp] theorem putByte_dig1 (s : State) (b : Byte) : (s.putByte b).dig1 = s.dig1 := (rfl)
@[simp] theorem putByte_len (s : State) (b : Byte) : (s.putByte b).len = s.len + 1 := (rfl)
@[simp] theorem putByte_h1 (s : State) (b : Byte) : (s.putByte b).h1 = s.h1 := (rfl)
@[simp] theorem putByte_h2 (s : State) (b : Byte) : (s.putByte b).h2 = s.h2 := (rfl)
@[simp] theorem putByte_buf (s : State) (b : Byte) : (s.putByte b).buf = s.buf.set s.blen.toNat b s.blen.isLt := (rfl)
@[simp] theorem putByte_blen (s : State) (b : Byte) : (s.putByte b).blen = s.blen := (rfl)
@[simp] theorem putByte_draws (s : State) (b : Byte) : (s.putByte b).draws = s.draws := (rfl)
@[simp] theorem putByte_port (s : State) (b : Byte) : (s.putByte b).port = s.port := (rfl)
@[simp] theorem putByte_reads (s : State) (b : Byte) : (s.putByte b).reads = s.reads := (rfl)

@[simp] theorem advanceCursor_mode (s : State) : s.advanceCursor.mode = s.mode := (rfl)
@[simp] theorem advanceCursor_errcode (s : State) : s.advanceCursor.errcode = s.errcode := (rfl)
@[simp] theorem advanceCursor_arg0 (s : State) : s.advanceCursor.arg0 = s.arg0 := (rfl)
@[simp] theorem advanceCursor_arg1 (s : State) : s.advanceCursor.arg1 = s.arg1 := (rfl)
@[simp] theorem advanceCursor_dig0 (s : State) : s.advanceCursor.dig0 = s.dig0 := (rfl)
@[simp] theorem advanceCursor_dig1 (s : State) : s.advanceCursor.dig1 = s.dig1 := (rfl)
@[simp] theorem advanceCursor_len (s : State) : s.advanceCursor.len = s.len := (rfl)
@[simp] theorem advanceCursor_h1 (s : State) : s.advanceCursor.h1 = s.h1 := (rfl)
@[simp] theorem advanceCursor_h2 (s : State) : s.advanceCursor.h2 = s.h2 := (rfl)
@[simp] theorem advanceCursor_buf (s : State) : s.advanceCursor.buf = s.buf := (rfl)
@[simp] theorem advanceCursor_blen (s : State) : s.advanceCursor.blen = s.blen + 1 := (rfl)
@[simp] theorem advanceCursor_draws (s : State) : s.advanceCursor.draws = s.draws := (rfl)
@[simp] theorem advanceCursor_port (s : State) : s.advanceCursor.port = s.port := (rfl)
@[simp] theorem advanceCursor_reads (s : State) : s.advanceCursor.reads = s.reads := (rfl)

@[simp] theorem setDigest_mode (s : State) (d0 d1 : Word) : (s.setDigest d0 d1).mode = s.mode := (rfl)
@[simp] theorem setDigest_errcode (s : State) (d0 d1 : Word) : (s.setDigest d0 d1).errcode = s.errcode := (rfl)
@[simp] theorem setDigest_arg0 (s : State) (d0 d1 : Word) : (s.setDigest d0 d1).arg0 = s.arg0 := (rfl)
@[simp] theorem setDigest_arg1 (s : State) (d0 d1 : Word) : (s.setDigest d0 d1).arg1 = s.arg1 := (rfl)
@[simp] theorem setDigest_dig0 (s : State) (d0 d1 : Word) : (s.setDigest d0 d1).dig0 = d0 := (rfl)
@[simp] theorem setDigest_dig1 (s : State) (d0 d1 : Word) : (s.setDigest d0 d1).dig1 = d1 := (rfl)
@[simp] theorem setDigest_len (s : State) (d0 d1 : Word) : (s.setDigest d0 d1).len = s.len := (rfl)
@[simp] theorem setDigest_h1 (s : State) (d0 d1 : Word) : (s.setDigest d0 d1).h1 = s.h1 := (rfl)
@[simp] theorem setDigest_h2 (s : State) (d0 d1 : Word) : (s.setDigest d0 d1).h2 = s.h2 := (rfl)
@[simp] theorem setDigest_buf (s : State) (d0 d1 : Word) : (s.setDigest d0 d1).buf = s.buf := (rfl)
@[simp] theorem setDigest_blen (s : State) (d0 d1 : Word) : (s.setDigest d0 d1).blen = s.blen := (rfl)
@[simp] theorem setDigest_draws (s : State) (d0 d1 : Word) : (s.setDigest d0 d1).draws = s.draws := (rfl)
@[simp] theorem setDigest_port (s : State) (d0 d1 : Word) : (s.setDigest d0 d1).port = s.port := (rfl)
@[simp] theorem setDigest_reads (s : State) (d0 d1 : Word) : (s.setDigest d0 d1).reads = s.reads := (rfl)

@[simp] theorem setArg0_mode (s : State) (v : Word) : (s.setArg0 v).mode = s.mode := (rfl)
@[simp] theorem setArg0_errcode (s : State) (v : Word) : (s.setArg0 v).errcode = s.errcode := (rfl)
@[simp] theorem setArg0_arg0 (s : State) (v : Word) : (s.setArg0 v).arg0 = v := (rfl)
@[simp] theorem setArg0_arg1 (s : State) (v : Word) : (s.setArg0 v).arg1 = s.arg1 := (rfl)
@[simp] theorem setArg0_dig0 (s : State) (v : Word) : (s.setArg0 v).dig0 = s.dig0 := (rfl)
@[simp] theorem setArg0_dig1 (s : State) (v : Word) : (s.setArg0 v).dig1 = s.dig1 := (rfl)
@[simp] theorem setArg0_len (s : State) (v : Word) : (s.setArg0 v).len = s.len := (rfl)
@[simp] theorem setArg0_h1 (s : State) (v : Word) : (s.setArg0 v).h1 = s.h1 := (rfl)
@[simp] theorem setArg0_h2 (s : State) (v : Word) : (s.setArg0 v).h2 = s.h2 := (rfl)
@[simp] theorem setArg0_buf (s : State) (v : Word) : (s.setArg0 v).buf = s.buf := (rfl)
@[simp] theorem setArg0_blen (s : State) (v : Word) : (s.setArg0 v).blen = s.blen := (rfl)
@[simp] theorem setArg0_draws (s : State) (v : Word) : (s.setArg0 v).draws = s.draws := (rfl)
@[simp] theorem setArg0_port (s : State) (v : Word) : (s.setArg0 v).port = s.port := (rfl)
@[simp] theorem setArg0_reads (s : State) (v : Word) : (s.setArg0 v).reads = s.reads := (rfl)

@[simp] theorem setArg1_mode (s : State) (v : Word) : (s.setArg1 v).mode = s.mode := (rfl)
@[simp] theorem setArg1_errcode (s : State) (v : Word) : (s.setArg1 v).errcode = s.errcode := (rfl)
@[simp] theorem setArg1_arg0 (s : State) (v : Word) : (s.setArg1 v).arg0 = s.arg0 := (rfl)
@[simp] theorem setArg1_arg1 (s : State) (v : Word) : (s.setArg1 v).arg1 = v := (rfl)
@[simp] theorem setArg1_dig0 (s : State) (v : Word) : (s.setArg1 v).dig0 = s.dig0 := (rfl)
@[simp] theorem setArg1_dig1 (s : State) (v : Word) : (s.setArg1 v).dig1 = s.dig1 := (rfl)
@[simp] theorem setArg1_len (s : State) (v : Word) : (s.setArg1 v).len = s.len := (rfl)
@[simp] theorem setArg1_h1 (s : State) (v : Word) : (s.setArg1 v).h1 = s.h1 := (rfl)
@[simp] theorem setArg1_h2 (s : State) (v : Word) : (s.setArg1 v).h2 = s.h2 := (rfl)
@[simp] theorem setArg1_buf (s : State) (v : Word) : (s.setArg1 v).buf = s.buf := (rfl)
@[simp] theorem setArg1_blen (s : State) (v : Word) : (s.setArg1 v).blen = s.blen := (rfl)
@[simp] theorem setArg1_draws (s : State) (v : Word) : (s.setArg1 v).draws = s.draws := (rfl)
@[simp] theorem setArg1_port (s : State) (v : Word) : (s.setArg1 v).port = s.port := (rfl)
@[simp] theorem setArg1_reads (s : State) (v : Word) : (s.setArg1 v).reads = s.reads := (rfl)

@[simp] theorem returnRead_mode (s : State) (h : Nat) (v : Word) : (s.returnRead h v).mode = s.mode := (rfl)
@[simp] theorem returnRead_errcode (s : State) (h : Nat) (v : Word) : (s.returnRead h v).errcode = s.errcode := (rfl)
@[simp] theorem returnRead_arg0 (s : State) (h : Nat) (v : Word) : (s.returnRead h v).arg0 = s.arg0 := (rfl)
@[simp] theorem returnRead_arg1 (s : State) (h : Nat) (v : Word) : (s.returnRead h v).arg1 = s.arg1 := (rfl)
@[simp] theorem returnRead_dig0 (s : State) (h : Nat) (v : Word) : (s.returnRead h v).dig0 = s.dig0 := (rfl)
@[simp] theorem returnRead_dig1 (s : State) (h : Nat) (v : Word) : (s.returnRead h v).dig1 = s.dig1 := (rfl)
@[simp] theorem returnRead_len (s : State) (h : Nat) (v : Word) : (s.returnRead h v).len = s.len := (rfl)
@[simp] theorem returnRead_h1 (s : State) (h : Nat) (v : Word) : (s.returnRead h v).h1 = s.h1 := (rfl)
@[simp] theorem returnRead_h2 (s : State) (h : Nat) (v : Word) : (s.returnRead h v).h2 = s.h2 := (rfl)
@[simp] theorem returnRead_buf (s : State) (h : Nat) (v : Word) : (s.returnRead h v).buf = s.buf := (rfl)
@[simp] theorem returnRead_blen (s : State) (h : Nat) (v : Word) : (s.returnRead h v).blen = s.blen := (rfl)
@[simp] theorem returnRead_draws (s : State) (h : Nat) (v : Word) : (s.returnRead h v).draws = s.draws := (rfl)
@[simp] theorem returnRead_port (s : State) (h : Nat) (v : Word) : (s.returnRead h v).port = s.port := (rfl)
@[simp] theorem returnRead_reads (s : State) (h : Nat) (v : Word) : (s.returnRead h v).reads = s.reads ++ [⟨h, v⟩] := (rfl)

@[simp] theorem setPort_mode (s : State) (es : List Event) : (s.setPort es).mode = s.mode := (rfl)
@[simp] theorem setPort_errcode (s : State) (es : List Event) : (s.setPort es).errcode = s.errcode := (rfl)
@[simp] theorem setPort_arg0 (s : State) (es : List Event) : (s.setPort es).arg0 = s.arg0 := (rfl)
@[simp] theorem setPort_arg1 (s : State) (es : List Event) : (s.setPort es).arg1 = s.arg1 := (rfl)
@[simp] theorem setPort_dig0 (s : State) (es : List Event) : (s.setPort es).dig0 = s.dig0 := (rfl)
@[simp] theorem setPort_dig1 (s : State) (es : List Event) : (s.setPort es).dig1 = s.dig1 := (rfl)
@[simp] theorem setPort_len (s : State) (es : List Event) : (s.setPort es).len = s.len := (rfl)
@[simp] theorem setPort_h1 (s : State) (es : List Event) : (s.setPort es).h1 = s.h1 := (rfl)
@[simp] theorem setPort_h2 (s : State) (es : List Event) : (s.setPort es).h2 = s.h2 := (rfl)
@[simp] theorem setPort_buf (s : State) (es : List Event) : (s.setPort es).buf = s.buf := (rfl)
@[simp] theorem setPort_blen (s : State) (es : List Event) : (s.setPort es).blen = s.blen := (rfl)
@[simp] theorem setPort_draws (s : State) (es : List Event) : (s.setPort es).draws = s.draws := (rfl)
@[simp] theorem setPort_port (s : State) (es : List Event) : (s.setPort es).port = es := (rfl)
@[simp] theorem setPort_reads (s : State) (es : List Event) : (s.setPort es).reads = s.reads := (rfl)

@[simp] theorem hardReset_mode (s : State) : s.hardReset.mode = .none := (rfl)
@[simp] theorem hardReset_errcode (s : State) : s.hardReset.errcode = .none := (rfl)
@[simp] theorem hardReset_arg0 (s : State) : s.hardReset.arg0 = 0 := (rfl)
@[simp] theorem hardReset_arg1 (s : State) : s.hardReset.arg1 = 0 := (rfl)
@[simp] theorem hardReset_dig0 (s : State) : s.hardReset.dig0 = 0 := (rfl)
@[simp] theorem hardReset_dig1 (s : State) : s.hardReset.dig1 = 0 := (rfl)
@[simp] theorem hardReset_len (s : State) : s.hardReset.len = 0 := (rfl)
@[simp] theorem hardReset_h1 (s : State) : s.hardReset.h1 = Config.freeH1 s.draws := (rfl)
@[simp] theorem hardReset_h2 (s : State) : s.hardReset.h2 = Config.freeH2 s.draws := (rfl)
@[simp] theorem hardReset_buf (s : State) : s.hardReset.buf = Config.freeBuf s.draws := (rfl)
@[simp] theorem hardReset_blen (s : State) : s.hardReset.blen = 0 := (rfl)
@[simp] theorem hardReset_draws (s : State) : s.hardReset.draws = s.draws + 1 := (rfl)
@[simp] theorem hardReset_port (s : State) : s.hardReset.port = s.port := (rfl)
@[simp] theorem hardReset_reads (s : State) : s.hardReset.reads = s.reads := (rfl)

@[simp] theorem recordError_pend (s : State) (c : ErrCode) : (s.recordError c).pend = s.pend := (rfl)
@[simp] theorem clearError_pend (s : State) : s.clearError.pend = s.pend := (rfl)
@[simp] theorem setAccumulators_pend (s : State) (x1 x2 : Word) : (s.setAccumulators x1 x2).pend = s.pend := (rfl)
@[simp] theorem setDigest_pend (s : State) (d0 d1 : Word) : (s.setDigest d0 d1).pend = s.pend := (rfl)
@[simp] theorem setArg0_pend (s : State) (v : Word) : (s.setArg0 v).pend = s.pend := (rfl)
@[simp] theorem setArg1_pend (s : State) (v : Word) : (s.setArg1 v).pend = s.pend := (rfl)
@[simp] theorem returnRead_pend (s : State) (h : Nat) (v : Word) : (s.returnRead h v).pend = s.pend := (rfl)
@[simp] theorem setPort_pend (s : State) (es : List Event) : (s.setPort es).pend = s.pend := (rfl)

@[simp] theorem emptyBuffer_pend (s : State) : s.emptyBuffer.pend = [] := (rfl)

@[simp] theorem startStream_pend (s : State) (m : Mode) (x1 x2 : Word) : (s.startStream m x1 x2).pend = [] := (rfl)

@[simp] theorem hardReset_pend (s : State) : s.hardReset.pend = [] := (rfl)

end Sys2Proof.Machine
end

