-- ==== Sys2Proof/Laws/Step.lean ====
section
/-! SUPPORT. What one event can do, said once: the cases of `exec`, of `perform` and of `step`. -/

namespace Sys2Proof.Machine

/-- Recording an error over a recorded one changes nothing. -/
theorem recordError_of_error {s : State} (c : ErrCode) (h : s.errcode ≠ .none) : s.recordError c = s := by
  simp [State.recordError, h]

theorem absorbAll_nil (s : State) : absorbAll s [] = s := rfl

theorem absorbAll_cons (s : State) (b : Byte) (bs : List Byte) :
    absorbAll s (b :: bs) = absorbAll (absorb s b) bs := rfl

theorem absorbAll_append (s : State) (as bs : List Byte) :
    absorbAll s (as ++ bs) = absorbAll (absorbAll s as) bs := List.foldl_append

@[simp] theorem chunk_length (a0 a1 : Word) (n : Nat) : (chunk a0 a1 n).length = n := by simp [chunk]

/-- The code a command raises in a mode, apart from its encoding (60_exceptions.md R192). -/
def modeError (i : Instr) (m : Mode) : Option ErrCode :=
  match i, m with
  | .write _, .none => some .noInit
  | .sum32, .none => some .noInit
  | .sum128, .none => some .noInit
  | .sum32, .m128 => some .mode
  | .sum128, .m32 => some .mode
  | _, _ => none

/-- A command that its mode forbids records the error and does nothing else. -/
theorem exec_of_modeError {i : Instr} {s : State} {c : ErrCode} (hw : i.wf = true)
    (h : modeError i s.mode = some c) : exec i s = .next (s.recordError c) := by
  cases hm : s.mode <;> cases i <;> rw [hm] at h <;> simp only [modeError, reduceCtorEq, Option.some.injEq] at h <;>
    subst h <;>
    simp_all [exec, execWrite, execSum32, execSum128, raise, Instr.wf, Nat.not_lt.mpr]

/-- A command that raises nothing: what it does to the state (30_encoding.md R85). -/
def effect (i : Instr) (s : State) : State :=
  match i with
  | .nop => s
  | .init32 => s.startStream .m32 ((seed32 s).setWidth 64) 0
  | .init128 => s.startStream .m128 s.arg0 s.arg1
  | .init64 => s.startStream .m128 s.arg0 s.arg0
  | .write n => absorbAll s (chunk s.arg0 s.arg1 n.toNat)
  | .sum32 => s.setDigest ((final32 (s.h1.setWidth 32) s.pend s.len).setWidth 64) 0
  | .sum128 => s.setDigest (final128 s.h1 s.h2 s.pend s.len).1 (final128 s.h1 s.h2 s.pend s.len).2
  | .clrerr => s.clearError

theorem exec_of_no_modeError {i : Instr} {s : State} (hw : i.wf = true) (h : modeError i s.mode = none) :
    exec i s = .next (effect i s) := by
  cases hm : s.mode <;> cases i <;> rw [hm] at h <;> simp only [modeError, reduceCtorEq] at h <;>
    simp_all [exec, execWrite, execSum32, execSum128, execNop, execInit32, execInit128, execInit64, execClrerr,
      effect, Instr.wf, Nat.not_lt.mpr]

theorem legal_iff (off : Fin 64) (size : Nat) : legal off size = true ↔ size = 8 ∧ off.val % 8 = 0 := by
  simp only [legal, Bool.and_eq_true, beq_iff_eq, decide_eq_true_eq]
  omega

theorem commandError_of_reserved {w : Word} (m : Mode) (h : wordReserved w) : commandError w m = some .illegal := by
  unfold commandError
  rw [if_pos h]

/-- The error tables and the commands' own checks agree (60_exceptions.md R192). -/
theorem commandError_of_decode {w : Word} {i : Instr} (m : Mode) (h : decode w = .ok i) :
    commandError w m = modeError i m := by
  obtain ⟨h1, -, h2, -⟩ := decode_ok h
  unfold commandError
  rw [if_neg h1, ← h2]
  cases i <;> cases m <;> rfl

/-- The register at each offset of the map (20_memory.md R52). -/
theorem regWrite_at (off : Fin 64) (h : off.val % 8 = 0) (v : Word) (s : State) :
    regWrite (registerAt off) v s =
      if off.val = 0x08 then execute v s else if off.val = 0x18 then .next (s.setArg0 v)
      else if off.val = 0x20 then .next (s.setArg1 v) else raise .bus s := by
  obtain ⟨o, ho⟩ := off
  have h' : o = 0x00 ∨ o = 0x08 ∨ o = 0x10 ∨ o = 0x18 ∨ o = 0x20 ∨ o = 0x28 ∨ o = 0x30 ∨ o = 0x38 := by
    simp only at h
    omega
  rcases h' with rfl | rfl | rfl | rfl | rfl | rfl | rfl | rfl <;> simp [registerAt, regWrite]

/-- The value a legal read returns at each offset of the map (20_memory.md R52, R55). -/
theorem regValue_at (off : Fin 64) (h : off.val % 8 = 0) (s : State) :
    regValue s (registerAt off) =
      if off.val = 0x00 then idValue else if off.val = 0x08 then 0 else if off.val = 0x10 then statusWord s
      else if off.val = 0x18 then s.arg0 else if off.val = 0x20 then s.arg1 else if off.val = 0x28 then s.dig0
      else if off.val = 0x30 then s.dig1 else s.len := by
  obtain ⟨o, ho⟩ := off
  have h' : o = 0x00 ∨ o = 0x08 ∨ o = 0x10 ∨ o = 0x18 ∨ o = 0x20 ∨ o = 0x28 ∨ o = 0x30 ∨ o = 0x38 := by
    simp only at h
    omega
  rcases h' with rfl | rfl | rfl | rfl | rfl | rfl | rfl | rfl <;> simp [registerAt, regValue]

/-- What an event does to the state, in five cases. -/
theorem perform_cases (e : Event) (s : State) :
    (e = .reset ∧ perform e s = .next s.hardReset) ∨
    (∃ c, raisedError e s = some c ∧ (
      (issuedCommand e = none ∨ ∃ i, issuedCommand e = some i ∧ modeError i s.mode = some c) ∧
      ((∃ h off size, e = .access ⟨h, off, size, .read⟩ ∧
          perform e s = .next ((s.recordError c).returnRead h 0)) ∨
        ((∀ a, e = .access a → a.transfer ≠ .read) ∧ perform e s = .next (s.recordError c))) ∧
      argsAfter e s.arg0 s.arg1 = (s.arg0, s.arg1))) ∨
    (raisedError e s = none ∧ issuedCommand e = none ∧ argsAfter e s.arg0 s.arg1 = (s.arg0, s.arg1) ∧
      ∃ h off, e = .access ⟨h, off, 8, .read⟩ ∧ off.val % 8 = 0 ∧
        perform e s = .next (s.returnRead h (regValue s (registerAt off)))) ∨
    (raisedError e s = none ∧ issuedCommand e = none ∧ ∃ h off v, e = .access ⟨h, off, 8, .write v⟩ ∧
      ((off.val = 0x18 ∧ argsAfter e s.arg0 s.arg1 = (v, s.arg1) ∧ perform e s = .next (s.setArg0 v)) ∨
       (off.val = 0x20 ∧ argsAfter e s.arg0 s.arg1 = (s.arg0, v) ∧ perform e s = .next (s.setArg1 v)))) ∨
    (raisedError e s = none ∧ argsAfter e s.arg0 s.arg1 = (s.arg0, s.arg1) ∧ (∃ h off w i,
      e = .access ⟨h, off, 8, .write w⟩ ∧ off.val = 0x08 ∧ decode w = .ok i ∧
      issuedCommand e = some i ∧ i.wf = true ∧ modeError i s.mode = none ∧ perform e s = .next (effect i s))) := by
  cases e with
  | reset => exact .inl ⟨rfl, rfl⟩
  | access a =>
  refine .inr ?_
  obtain ⟨h, off, size, tr⟩ := a
  by_cases hl : size ≠ 8 ∨ off.val % 8 ≠ 0
  · have hl' : legal off size = false := by
      rw [Bool.eq_false_iff, ne_eq, legal_iff]
      omega
    have hi : issuedCommand (.access ⟨h, off, size, tr⟩) = none := by
      simp only [issuedCommand]
      exact if_neg (by omega)
    refine .inl ⟨.bus, by simp [raisedError, hl], .inl hi, ?_, ?_⟩
    · cases tr with
      | read => exact .inl ⟨h, off, size, rfl, by simp [perform, performAccess, portRead, hl']⟩
      | write v => exact .inr ⟨by simp, by simp [perform, performAccess, portWrite, hl', raise]⟩
    · cases tr with
      | read => rfl
      | write v =>
        simp only [argsAfter]
        rw [if_neg (by omega), if_neg (by omega)]
  · obtain ⟨rfl, h8⟩ : size = 8 ∧ off.val % 8 = 0 := by omega
    have hl' : legal off 8 = true := (legal_iff _ _).2 ⟨rfl, h8⟩
    cases tr with
    | read =>
      exact .inr (.inl ⟨by simp [raisedError, h8], by simp [issuedCommand], rfl, h, off, rfl, h8,
        by simp [perform, performAccess, portRead, hl']⟩)
    | write v =>
      have hp : perform (.access ⟨h, off, 8, .write v⟩) s = regWrite (registerAt off) v s := by
        simp [perform, performAccess, portWrite, hl']
      rw [regWrite_at off h8] at hp
      have hr : raisedError (.access ⟨h, off, 8, .write v⟩) s = if off.val = 0x08 then commandError v s.mode
          else if off.val = 0x18 ∨ off.val = 0x20 then none else some .bus := by
        simp [raisedError, h8]
      by_cases h1 : off.val = 0x08
      · rw [if_pos h1] at hp hr
        have ha : argsAfter (.access ⟨h, off, 8, .write v⟩) s.arg0 s.arg1 = (s.arg0, s.arg1) := by
          simp [argsAfter, h1]
        by_cases hv : wordReserved v
        · obtain ⟨r, hd⟩ := decode_of_reserved v hv
          rw [commandError_of_reserved _ hv] at hr
          refine .inl ⟨.illegal, hr, .inl (by simp [issuedCommand, hd]), .inr ⟨by simp, ?_⟩, ha⟩
          rw [hp, execute, hd, raise]
        · obtain ⟨i, hd, hw, -⟩ := decode_of_not_reserved v hv
          have hc : issuedCommand (.access ⟨h, off, 8, .write v⟩) = some i := by simp [issuedCommand, h1, hd]
          rw [commandError_of_decode _ hd] at hr
          rw [execute, hd] at hp
          cases hm : modeError i s.mode with
          | some c =>
            rw [hm] at hr
            exact .inl ⟨c, hr, .inr ⟨i, hc, hm⟩, .inr ⟨by simp, hp.trans (exec_of_modeError hw hm)⟩, ha⟩
          | none =>
            rw [hm] at hr
            exact .inr (.inr (.inr ⟨hr, ha, h, off, v, i, rfl, h1, hd, hc, hw, hm,
              hp.trans (exec_of_no_modeError hw hm)⟩))
      · rw [if_neg h1] at hp hr
        have hc : issuedCommand (.access ⟨h, off, 8, .write v⟩) = none := by simp [issuedCommand, h1]
        by_cases h2 : off.val = 0x18
        · rw [if_pos h2] at hp
          rw [if_pos (.inl h2)] at hr
          exact .inr (.inr (.inl ⟨hr, hc, h, off, v, rfl, .inl ⟨h2, by simp [argsAfter, h2], hp⟩⟩))
        by_cases h3 : off.val = 0x20
        · rw [if_neg h2, if_pos h3] at hp
          rw [if_pos (.inr h3)] at hr
          exact .inr (.inr (.inl ⟨hr, hc, h, off, v, rfl, .inr ⟨h3, by simp [argsAfter, h3], hp⟩⟩))
        · rw [if_neg h2, if_neg h3] at hp
          rw [if_neg (by omega)] at hr
          exact .inl ⟨.bus, hr, .inl hc, .inr ⟨by simp, hp⟩, by simp [argsAfter, h2, h3]⟩

/-- A step performs the oldest pending event. -/
theorem step_of_port {s : State} {e : Event} {es : List Event} (h : s.port = e :: es) :
    step s = perform e (s.setPort es) := by
  unfold step
  rw [h]

/-- Every event completes. -/
theorem perform_next (e : Event) (s : State) : ∃ t, perform e s = .next t := by
  rcases perform_cases e s with ⟨-, h⟩ | ⟨c, -, -, ⟨_, _, _, _, h⟩ | ⟨-, h⟩, -⟩ | ⟨-, -, -, _, _, _, _, h⟩ |
    ⟨-, -, _, _, _, _, ⟨-, -, h⟩ | ⟨-, -, h⟩⟩ | ⟨-, -, _, _, _, _, _, _, _, _, _, _, h⟩ <;> exact ⟨_, h⟩

/-- A run of one more step. -/
theorem run_succ {s t : State} (k : Nat) (h : step s = .next t) :
    Host.Core.run Sys2Proof.core (k + 1) s = Host.Core.run Sys2Proof.core k t := by
  have h' : Sys2Proof.core.step s = .next t := h
  simp only [Host.Core.run, h']

theorem run_zero (s : State) : Host.Core.run Sys2Proof.core 0 s = .next s := rfl

/-- Runs compose. -/
theorem run_add {s t : State} (j k : Nat) (h : Host.Core.run Sys2Proof.core j s = .next t) :
    Host.Core.run Sys2Proof.core (j + k) s = Host.Core.run Sys2Proof.core k t := by
  induction j generalizing s with
  | zero =>
    rw [run_zero] at h
    cases h
    rw [Nat.zero_add]
  | succ j ih =>
    cases hs : step s with
    | next u =>
      rw [run_succ j hs] at h
      rw [Nat.add_right_comm, run_succ _ hs]
      exact ih h
    | fault r => exact nomatch r
    | refused r =>
      exfalso
      cases hp : s.port with
      | nil => simp [step, hp] at hs
      | cons e es =>
        rw [step_of_port hp] at hs
        obtain ⟨u, hu⟩ := perform_next e (s.setPort es)
        rw [hu] at hs
        cases hs

end Sys2Proof.Machine
end

