-- ==== Sys2Proof/Laws/Stream.lean ====
section
/-! SUPPORT. The streaming laws: a block loop unrolls from the front, one absorbed byte, a sequence of absorbed
bytes, and what a sequence of events does to the stream. -/

namespace Sys2Proof.Machine

/-! ### Block loops -/

/-- The block loop of both engines, with block size `k` and block step `f`. -/
def foldBlocks {α : Type} (k : Nat) (f : α → List Byte → α) (a : α) (data : List Byte) : α :=
  (List.range (data.length / k)).foldl (fun a j => f a ((data.drop (k * j)).take k)) a

theorem blocks32_eq (h : Word32) (data : List Byte) : blocks32 h data = foldBlocks 4 block32 h data := rfl

theorem blocks128_eq (h1 h2 : Word) (data : List Byte) :
    blocks128 h1 h2 data = foldBlocks 16 (fun p b => block128 p.1 p.2 b) (h1, h2) data := rfl

/-- Fewer bytes than a block: the loop does nothing. -/
theorem foldBlocks_short {α : Type} {k : Nat} (f : α → List Byte → α) (a : α) {data : List Byte}
    (h : data.length < k) : foldBlocks k f a data = a := by
  simp [foldBlocks, Nat.div_eq_of_lt h]

/-- The loop takes the first block first. -/
theorem foldBlocks_cons {α : Type} {k : Nat} (hk : 0 < k) (f : α → List Byte → α) (a : α) {b data : List Byte}
    (h : b.length = k) : foldBlocks k f a (b ++ data) = foldBlocks k f (f a b) data := by
  have h1 : (b ++ data).length / k = data.length / k + 1 := by
    rw [List.length_append, h, Nat.add_comm, Nat.add_div_right _ hk]
  simp only [foldBlocks, h1, List.range_succ_eq_map, List.foldl_cons, List.foldl_map]
  have h2 : ((b ++ data).drop (k * 0)).take k = b := by simp [← h]
  rw [h2]
  congr 1
  funext c j
  have h3 : (b ++ data).drop (k * (j + 1)) = data.drop (k * j) := by
    rw [Nat.mul_succ, Nat.add_comm, ← List.drop_drop, ← h, List.drop_left]
  rw [Nat.succ_eq_add_one, h3]

/-! ### One byte -/

theorem take_set_succ {l : List Byte} {i : Nat} (b : Byte) (h : i < l.length) :
    (l.set i b).take (i + 1) = l.take i ++ [b] := by
  rw [List.take_add_one, List.take_set_of_le (Nat.le_refl i), List.getElem?_set_self h]
  rfl

theorem putByte_take (s : State) (b : Byte) :
    (s.putByte b).buf.toList.take (s.blen.toNat + 1) = s.pend ++ [b] := by
  have h : s.blen.toNat < s.buf.toList.length := by simpa using s.blen.isLt
  rw [putByte_buf, Vector.toList_set, take_set_succ b h]
  rfl

@[simp] theorem pend_length (s : State) : s.pend.length = s.blen.toNat := by
  have := s.blen.isLt
  simp only [State.pend, List.length_take, Vector.length_toList]
  omega

/-- Absorbing a byte that does not fill the block. -/
theorem absorb_partial {s : State} {k : Nat} (b : Byte) (hk : s.mode.blockSize = some k)
    (h : s.blen.toNat + 1 < k) :
    absorb s b = (s.putByte b).advanceCursor ∧ (absorb s b).pend = s.pend ++ [b] ∧
      (absorb s b).blen.toNat = s.blen.toNat + 1 := by
  have h1 : absorb s b = (s.putByte b).advanceCursor := by
    unfold absorb
    rw [hk, if_neg (by simp only [Option.some.injEq]; omega)]
  have h2 : k ≤ 16 := by
    cases hm : s.mode <;> rw [hm] at hk <;> simp [Mode.blockSize] at hk <;> omega
  have h3 : (absorb s b).blen.toNat = s.blen.toNat + 1 := by
    rw [h1, advanceCursor_blen, putByte_blen, BitVec.toNat_add]
    have : (1 : BitVec 4).toNat = 1 := rfl
    omega
  refine ⟨h1, ?_, h3⟩
  rw [← putByte_take, State.pend, h3, h1]
  rfl

/-- Absorbing the byte that fills the block. -/
theorem absorb_full {s : State} {k : Nat} (b : Byte) (hk : s.mode.blockSize = some k) (h : s.blen.toNat + 1 = k) :
    absorb s b = (processBlock (s.putByte b)).emptyBuffer ∧ (s.putByte b).buf.toList.take k = s.pend ++ [b] := by
  refine ⟨?_, by rw [← putByte_take, h]⟩
  unfold absorb
  rw [hk, if_pos (by rw [h])]

/-- The full block of M32, seen from the stream. -/
theorem absorb_full32 {s : State} (b : Byte) (hm : s.mode = .m32) (h : s.blen.toNat = 3) :
    (absorb s b).h1 = (block32 (s.h1.setWidth 32) (s.pend ++ [b])).setWidth 64 ∧ (absorb s b).h2 = s.h2 ∧
      (absorb s b).pend = [] ∧ (absorb s b).blen = 0 := by
  obtain ⟨h1, h2⟩ := absorb_full (k := 4) b (by rw [hm]; rfl) (by omega)
  rw [h1, ← h2]
  simp [processBlock, hm]

/-- The full block of M128, seen from the stream. -/
theorem absorb_full128 {s : State} (b : Byte) (hm : s.mode = .m128) (h : s.blen.toNat = 15) :
    ((absorb s b).h1, (absorb s b).h2) = block128 s.h1 s.h2 (s.pend ++ [b]) ∧
      (absorb s b).pend = [] ∧ (absorb s b).blen = 0 := by
  obtain ⟨h1, h2⟩ := absorb_full (k := 16) b (by rw [hm]; rfl) (by omega)
  have h3 : (s.putByte b).buf.toList.take 16 = (s.putByte b).buf.toList := by simp
  rw [h1, ← h2, h3]
  simp [processBlock, hm]

/-- What one byte leaves alone, whatever the engine. -/
theorem absorb_frame (s : State) (b : Byte) :
    (absorb s b).mode = s.mode ∧ (absorb s b).errcode = s.errcode ∧ (absorb s b).arg0 = s.arg0 ∧
      (absorb s b).arg1 = s.arg1 ∧ (absorb s b).dig0 = s.dig0 ∧ (absorb s b).dig1 = s.dig1 ∧
      (absorb s b).port = s.port ∧ (absorb s b).reads = s.reads ∧ (absorb s b).len = s.len + 1 := by
  unfold absorb
  split
  · cases hm : s.mode <;> simp [processBlock, hm]
  · simp

/-! ### Many bytes -/

/-- What a sequence of bytes leaves alone, and LEN. -/
theorem absorbAll_frame (bs : List Byte) (s : State) :
    (absorbAll s bs).mode = s.mode ∧ (absorbAll s bs).errcode = s.errcode ∧ (absorbAll s bs).arg0 = s.arg0 ∧
      (absorbAll s bs).arg1 = s.arg1 ∧ (absorbAll s bs).dig0 = s.dig0 ∧ (absorbAll s bs).dig1 = s.dig1 ∧
      (absorbAll s bs).port = s.port ∧ (absorbAll s bs).reads = s.reads ∧
      (absorbAll s bs).len = s.len + BitVec.ofNat 64 bs.length := by
  induction bs generalizing s with
  | nil => simp [absorbAll_nil]
  | cons b bs ih =>
    obtain ⟨h1, h2, h3, h4, h5, h6, h7, h8, h9⟩ := ih (absorb s b)
    obtain ⟨g1, g2, g3, g4, g5, g6, g7, g8, g9⟩ := absorb_frame s b
    rw [absorbAll_cons]
    refine ⟨h1.trans g1, h2.trans g2, h3.trans g3, h4.trans g4, h5.trans g5, h6.trans g6, h7.trans g7,
      h8.trans g8, ?_⟩
    rw [h9, g9, List.length_cons, BitVec.add_assoc, Nat.add_comm, BitVec.ofNat_add]
    rfl

/-- Absorbing bytes one by one in M32 is running the block loop over the pending bytes and the new ones, and
keeping the remainder (42_streaming.md R161, R164). -/
theorem absorbAll_m32 (bs : List Byte) {s : State} (hm : s.mode = .m32) (hb : s.blen.toNat < 4)
    (hh : s.h1 = (s.h1.setWidth 32).setWidth 64) :
    (absorbAll s bs).h1 = (blocks32 (s.h1.setWidth 32) (s.pend ++ bs)).setWidth 64 ∧
      (absorbAll s bs).h2 = s.h2 ∧
      (absorbAll s bs).pend = (s.pend ++ bs).drop (4 * ((s.blen.toNat + bs.length) / 4)) ∧
      (absorbAll s bs).blen.toNat = (s.blen.toNat + bs.length) % 4 := by
  induction bs generalizing s with
  | nil =>
    rw [List.append_nil, blocks32_eq, foldBlocks_short _ _ (by simpa using hb), ← hh]
    simp [absorbAll_nil, Nat.div_eq_of_lt hb, Nat.mod_eq_of_lt hb]
  | cons b bs ih =>
    have hk : s.mode.blockSize = some 4 := by rw [hm]; rfl
    have hm' := (absorb_frame s b).1.trans hm
    rw [absorbAll_cons]
    have happ : s.pend ++ b :: bs = (s.pend ++ [b]) ++ bs := by simp
    by_cases h3 : s.blen.toNat = 3
    · obtain ⟨g1, g2, g3, g4⟩ := absorb_full32 b hm h3
      have hlen : (s.pend ++ [b]).length = 4 := by simp [h3]
      have hw : (absorb s b).h1.setWidth 32 = block32 (s.h1.setWidth 32) (s.pend ++ [b]) := by
        rw [g1, BitVec.setWidth_setWidth_of_le _ (by omega), BitVec.setWidth_eq]
      have hb' : (absorb s b).blen.toNat = 0 := by rw [g4]; rfl
      obtain ⟨k1, k2, k3, k4⟩ := ih hm' (by omega) (by rw [hw, ← g1])
      rw [hw, g3, List.nil_append] at k1
      rw [g3, List.nil_append, hb'] at k3
      rw [hb'] at k4
      refine ⟨?_, k2.trans g2, ?_, ?_⟩
      · rw [k1, happ, blocks32_eq, blocks32_eq, foldBlocks_cons (by omega) _ _ hlen]
      · rw [k3, happ, h3]
        have : 4 * ((3 + (b :: bs).length) / 4) = (s.pend ++ [b]).length + 4 * ((0 + bs.length) / 4) := by
          rw [hlen, List.length_cons]
          omega
        rw [this, ← List.drop_drop, List.drop_left]
      · rw [k4, h3, List.length_cons]
        omega
    · obtain ⟨g1, g2, g3⟩ := absorb_partial b hk (by omega)
      have gh1 : (absorb s b).h1 = s.h1 := by rw [g1]; rfl
      have gh2 : (absorb s b).h2 = s.h2 := by rw [g1]; rfl
      obtain ⟨k1, k2, k3, k4⟩ := ih hm' (by omega) (by rw [gh1, ← hh])
      rw [gh1, g2, ← happ] at k1
      rw [g2, ← happ, g3] at k3
      rw [g3] at k4
      have hl : s.blen.toNat + 1 + bs.length = s.blen.toNat + (b :: bs).length := by
        rw [List.length_cons]
        omega
      rw [hl] at k3 k4
      exact ⟨k1, k2.trans gh2, k3, k4⟩

/-- Absorbing bytes one by one in M128 is running the block loop over the pending bytes and the new ones, and
keeping the remainder (42_streaming.md R161, R164). -/
theorem absorbAll_m128 (bs : List Byte) {s : State} (hm : s.mode = .m128) :
    ((absorbAll s bs).h1, (absorbAll s bs).h2) = blocks128 s.h1 s.h2 (s.pend ++ bs) ∧
      (absorbAll s bs).pend = (s.pend ++ bs).drop (16 * ((s.blen.toNat + bs.length) / 16)) ∧
      (absorbAll s bs).blen.toNat = (s.blen.toNat + bs.length) % 16 := by
  induction bs generalizing s with
  | nil =>
    have hb : s.blen.toNat < 16 := s.blen.isLt
    rw [List.append_nil, blocks128_eq, foldBlocks_short _ _ (by simpa using hb)]
    simp [absorbAll_nil, Nat.div_eq_of_lt hb, Nat.mod_eq_of_lt hb]
  | cons b bs ih =>
    have hb : s.blen.toNat < 16 := s.blen.isLt
    have hk : s.mode.blockSize = some 16 := by rw [hm]; rfl
    have hm' := (absorb_frame s b).1.trans hm
    rw [absorbAll_cons]
    have happ : s.pend ++ b :: bs = (s.pend ++ [b]) ++ bs := by simp
    obtain ⟨k1, k3, k4⟩ := ih hm'
    by_cases h3 : s.blen.toNat = 15
    · obtain ⟨g1, g3, g4⟩ := absorb_full128 b hm h3
      have hlen : (s.pend ++ [b]).length = 16 := by simp [h3]
      have hb' : (absorb s b).blen.toNat = 0 := by rw [g4]; rfl
      rw [blocks128_eq, g1, g3, List.nil_append] at k1
      rw [g3, List.nil_append, hb'] at k3
      rw [hb'] at k4
      refine ⟨?_, ?_, ?_⟩
      · rw [k1, happ, blocks128_eq, foldBlocks_cons (by omega) _ _ hlen]
      · rw [k3, happ, h3]
        have : 16 * ((15 + (b :: bs).length) / 16) = (s.pend ++ [b]).length + 16 * ((0 + bs.length) / 16) := by
          rw [hlen, List.length_cons]
          omega
        rw [this, ← List.drop_drop, List.drop_left]
      · rw [k4, h3, List.length_cons]
        omega
    · obtain ⟨g1, g2, g3⟩ := absorb_partial b hk (by omega)
      have gh1 : (absorb s b).h1 = s.h1 := by rw [g1]; rfl
      have gh2 : (absorb s b).h2 = s.h2 := by rw [g1]; rfl
      rw [gh1, gh2, g2, ← happ] at k1
      rw [g2, ← happ, g3] at k3
      rw [g3] at k4
      have hl : s.blen.toNat + 1 + bs.length = s.blen.toNat + (b :: bs).length := by
        rw [List.length_cons]
        omega
      rw [hl] at k3 k4
      exact ⟨k1, k3, k4⟩

/-! ### Events -/

/-- No command touches the port or the operand registers (30_encoding.md R87). -/
theorem effect_frame (i : Instr) (s : State) : (effect i s).port = s.port ∧ (effect i s).reads = s.reads ∧
    (effect i s).arg0 = s.arg0 ∧ (effect i s).arg1 = s.arg1 := by
  cases i with
  | write n =>
    obtain ⟨_, _, h3, h4, _, _, h7, h8, _⟩ := absorbAll_frame (chunk s.arg0 s.arg1 n.toNat) s
    exact ⟨h7, h8, h3, h4⟩
  | _ => simp [effect]

/-- Performing an event leaves the pending events alone. -/
theorem perform_port {e : Event} {s t : State} (h : perform e s = .next t) : t.port = s.port := by
  rcases perform_cases e s with ⟨-, hp⟩ | ⟨c, -, -, ⟨_, _, _, _, hp⟩ | ⟨-, hp⟩, -⟩ | ⟨-, -, -, _, _, _, _, hp⟩ |
    ⟨-, -, _, _, _, _, ⟨-, -, hp⟩ | ⟨-, -, hp⟩⟩ | ⟨-, -, _, _, _, i, _, _, _, _, _, _, hp⟩ <;> rw [hp] at h <;> cases h
  all_goals first | rfl | exact (effect_frame i s).1

/-- Only a read returns a value. -/
theorem perform_reads {e : Event} {s t : State} (hq : ∀ a, e = .access a → a.transfer ≠ .read)
    (h : perform e s = .next t) : t.reads = s.reads := by
  rcases perform_cases e s with ⟨-, hp⟩ | ⟨c, -, -, ⟨_, _, _, he, hp⟩ | ⟨-, hp⟩, -⟩ | ⟨-, -, -, _, _, he, _, hp⟩ |
    ⟨-, -, _, _, _, _, ⟨-, -, hp⟩ | ⟨-, -, hp⟩⟩ | ⟨-, -, _, _, _, i, _, _, _, _, _, _, hp⟩ <;> rw [hp] at h <;> cases h
  all_goals first | rfl | exact absurd rfl (hq _ he) | exact (effect_frame i s).2.1

/-- Two states whose stream and draw counter are the same: absorbing keeps them so. -/
def sameLive (s t : State) : Prop := s.sameStream t ∧ t.draws = s.draws

theorem sameLive.refl (s : State) : sameLive s s := ⟨⟨rfl, rfl, rfl, rfl, rfl, rfl⟩, rfl⟩

theorem sameLive.trans {s t u : State} (h : sameLive s t) (g : sameLive t u) : sameLive s u := by
  obtain ⟨⟨h1, h2, h3, h4, h5, h6⟩, h7⟩ := h
  obtain ⟨⟨g1, g2, g3, g4, g5, g6⟩, g7⟩ := g
  exact ⟨⟨g1.trans h1, g2.trans h2, g3.trans h3, g4.trans h4, g5.trans h5, g6.trans h6⟩, g7.trans h7⟩

theorem absorb_sameLive {s t : State} (h : sameLive s t) (b : Byte) : sameLive (absorb s b) (absorb t b) := by
  obtain ⟨⟨h1, h2, h3, h4, h5, h6⟩, h7⟩ := h
  unfold absorb
  rw [h1, h5]
  split
  · cases hm : s.mode <;> simp [sameLive, State.sameStream, processBlock, hm, h1, h2, h3, h4, h5, h6, h7]
  · simp [sameLive, State.sameStream, h1, h2, h3, h4, h5, h6, h7]

theorem absorbAll_sameLive (bs : List Byte) {s t : State} (h : sameLive s t) :
    sameLive (absorbAll s bs) (absorbAll t bs) := by
  induction bs generalizing s t with
  | nil => exact h
  | cons b bs ih => exact ih (absorb_sameLive h b)

/-- An event that is no INIT and no reset, in a bound core: its arguments, and its stream, which has absorbed the
bytes the event wrote. -/
theorem perform_live {e : Event} {s t : State} (hr : restarts e = false) (hm : s.mode ≠ .none)
    (h : perform e s = .next t) :
    (t.arg0, t.arg1) = argsAfter e s.arg0 s.arg1 ∧ t.port = s.port ∧
      sameLive (absorbAll s (bytesWritten e s.arg0 s.arg1)) t := by
  rcases perform_cases e s with ⟨rfl, -⟩ | ⟨c, -, hi, hp, ha⟩ | ⟨-, hi, ha, _, _, -, -, hp⟩ |
    ⟨-, hi, _, _, _, -, ⟨-, ha, hp⟩ | ⟨-, ha, hp⟩⟩ | ⟨-, ha, _, _, w, i, -, -, -, hi, hw, hmo, hp⟩
  · simp [restarts] at hr
  · have hb : bytesWritten e s.arg0 s.arg1 = [] := by
      unfold bytesWritten
      rcases hi with hi | ⟨i, hi, hc⟩
      · rw [hi]
      · rw [hi]
        cases i <;> try rfl
        cases hmm : s.mode <;> simp_all [modeError]
    rw [ha, hb, absorbAll_nil]
    rcases hp with ⟨_, _, _, -, hp⟩ | ⟨-, hp⟩ <;> rw [hp] at h <;> cases h <;>
      simp [sameLive, State.sameStream]
  · rw [hp] at h
    cases h
    rw [ha, bytesWritten, hi]
    simp [sameLive, State.sameStream, absorbAll_nil]
  · rw [hp] at h
    cases h
    rw [ha, bytesWritten, hi]
    simp [sameLive, State.sameStream, absorbAll_nil]
  · rw [hp] at h
    cases h
    rw [ha, bytesWritten, hi]
    simp [sameLive, State.sameStream, absorbAll_nil]
  · rw [hp] at h
    cases h
    rw [ha, bytesWritten, hi]
    cases i with
    | write n =>
      obtain ⟨-, -, h3, h4, -, -, h7, -, -⟩ := absorbAll_frame (chunk s.arg0 s.arg1 n.toNat) s
      refine ⟨by rw [effect, h3, h4], h7, ?_⟩
      simp only [effect]
      exact sameLive.refl _
    | init32 => simp [restarts, hi] at hr
    | init128 => simp [restarts, hi] at hr
    | init64 => simp [restarts, hi] at hr
    | nop => simp [sameLive, State.sameStream, absorbAll_nil, effect]
    | sum32 => simp [sameLive, State.sameStream, absorbAll_nil, effect]
    | sum128 => simp [sameLive, State.sameStream, absorbAll_nil, effect]
    | clrerr => simp [sameLive, State.sameStream, absorbAll_nil, effect]

/-- A run of events without INIT and reset, in a bound core, absorbs the message they write. -/
theorem run_live (es rest : List Event) {s : State} (hr : ∀ e ∈ es, restarts e = false) (hm : s.mode ≠ .none)
    (hp : s.port = es ++ rest) :
    ∃ t : State, Host.Core.run Sys2Proof.core es.length s = .next t ∧ t.port = rest ∧
      sameLive (absorbAll s (messageOf es s.arg0 s.arg1)) t := by
  induction es generalizing s with
  | nil => exact ⟨s, rfl, hp, by rw [messageOf, absorbAll_nil]; exact sameLive.refl s⟩
  | cons e es ih =>
    have hs := step_of_port (show s.port = e :: (es ++ rest) from hp)
    obtain ⟨u, hu⟩ := perform_next e (s.setPort (es ++ rest))
    rw [hu] at hs
    obtain ⟨ha, hpo, hl⟩ := perform_live (hr e (by simp)) (by simpa using hm) hu
    simp only [setPort_arg0, setPort_arg1, setPort_port] at ha hpo hl
    have hl0 : sameLive s (s.setPort (es ++ rest)) := ⟨⟨rfl, rfl, rfl, rfl, rfl, rfl⟩, rfl⟩
    have hlu := (absorbAll_sameLive (bytesWritten e s.arg0 s.arg1) hl0).trans hl
    have hmu : u.mode ≠ .none := by
      rw [hlu.1.1, (absorbAll_frame _ s).1]
      exact hm
    obtain ⟨t, ht, htp, htl⟩ := ih (fun x hx => hr x (by simp [hx])) hmu hpo
    refine ⟨t, (run_succ _ hs).trans ht, htp, ?_⟩
    rw [messageOf, absorbAll_append]
    have ha0 : u.arg0 = (argsAfter e s.arg0 s.arg1).1 := congrArg Prod.fst ha
    have ha1 : u.arg1 = (argsAfter e s.arg0 s.arg1).2 := congrArg Prod.snd ha
    rw [ha0, ha1] at htl
    exact (absorbAll_sameLive _ hlu).trans htl

end Sys2Proof.Machine
end

