-- ==== Sys2Proof/Tests/Slice0.lean ====
section
/-! SUPPORT. Tests of the model against the spec's own words and vectors (95_test_vectors.md), and one witness
theorem for each obligation that has hypotheses. -/

namespace Sys2Proof.Machine.Tests

/-! ### Small states and accessors -/

/-- A field of the next state. -/
def got {α : Type} (r : Result) (f : State → α) : Option α :=
  match r with
  | .next t => some (f t)
  | .fault _ => none
  | .refused _ => none

/-- BUF with some pending bytes first and zeros after. -/
def bufOf (bs : List Byte) : Vector Byte 16 := Vector.ofFn (fun i => bs.getD i.val 0)

/-- A live M32 stream with operands, an accumulator, pending bytes and a length. -/
def live32 (a0 a1 h : Word) (p : List Byte) (n : Word) : State :=
  { State.reset with
    mode := .m32, arg0 := a0, arg1 := a1, h1 := h, buf := bufOf p, blen := BitVec.ofNat 4 p.length, len := n }

/-- A live M128 stream with operands, accumulators, pending bytes and a length. -/
def live128 (a0 a1 x1 x2 : Word) (p : List Byte) (n : Word) : State :=
  { State.reset with
    mode := .m128, arg0 := a0, arg1 := a1, h1 := x1, h2 := x2, buf := bufOf p, blen := BitVec.ofNat 4 p.length,
    len := n }

/-- The core after a host writes one command word. -/
def after (s : State) (w : Nat) : Result := step (s.withFetchWord 64 w)

/-- The bytes 0, 1, ..., n−1. -/
def countBytes (n : Nat) : List Byte := (List.range n).map (BitVec.ofNat 8)

/-- "hello" in ASCII. -/
def hello : List Byte := [0x68, 0x65, 0x6c, 0x6c, 0x6f]

/-- "hello, world" in ASCII. -/
def helloWorld : List Byte := hello ++ [0x2c, 0x20, 0x77, 0x6f, 0x72, 0x6c, 0x64]

/-- "The quick brown fox jumps over the lazy dog." in ASCII. -/
def fox : List Byte :=
  [0x54, 0x68, 0x65, 0x20, 0x71, 0x75, 0x69, 0x63, 0x6b, 0x20, 0x62, 0x72, 0x6f, 0x77, 0x6e] ++
  [0x20, 0x66, 0x6f, 0x78, 0x20, 0x6a, 0x75, 0x6d, 0x70, 0x73, 0x20, 0x6f, 0x76, 0x65, 0x72] ++
  [0x20, 0x74, 0x68, 0x65, 0x20, 0x6c, 0x61, 0x7a, 0x79, 0x20, 0x64, 0x6f, 0x67, 0x2e]

/-! ### WellFormed refuses an ill-formed term -/

theorem test_write_17_is_ill_formed : (Instr.write 17).wf = false := by decide

theorem test_write_31_is_ill_formed : (Instr.write 31).wf = false := by decide

theorem test_write_16_is_well_formed : (Instr.write 16).wf = true := by decide

/-! ### Decoding: each command's word, written out from the fields of 30_encoding.md R81 and R85 (RSV N OP) -/

theorem test_decode_nop : decode 0b0_00000_00000000 = .ok .nop := by decide

theorem test_decode_init32 : decode 0b0_00000_00000001 = .ok .init32 := by decide

theorem test_decode_init128 : decode 0b0_00000_00000010 = .ok .init128 := by decide

theorem test_decode_init64 : decode 0b0_00000_00000011 = .ok .init64 := by decide

theorem test_decode_write_5 : decode 0b0_00101_00000100 = .ok (.write 5) := by decide

theorem test_decode_write_16 : decode 0b0_10000_00000100 = .ok (.write 16) := by decide

theorem test_decode_sum32 : decode 0b0_00000_00000101 = .ok .sum32 := by decide

theorem test_decode_sum128 : decode 0b0_00000_00000110 = .ok .sum128 := by decide

theorem test_decode_clrerr : decode 0b0_00000_00000111 = .ok .clrerr := by decide

/-- The words 95_test_vectors.md rows X6 to X11 give as illegal. -/
theorem test_decode_refuses :
    decode 0x08 = .error .reservedOpcode ∧ decode 0xFF = .error .reservedOpcode ∧
    decode 0x1104 = .error .countOutOfRange ∧ decode 0x105 = .error .countOnNonWrite ∧
    decode 0x2001 = .error .reservedBits ∧ decode 0x8000000000000000 = .error .reservedBits := by decide

theorem test_table_word_write_12 : decodeTableWord 64 0x0C04 = some (.write 12) := by decide

theorem test_table_word_refused : decodeTableWord 64 0x1104 = none := by decide

/-! ### The engines' functions (95_test_vectors.md sections 2.1 to 2.5) -/

theorem test_mix32 : mix32 0x00000001 = 0xc3539a5d ∧ mix32 0xffffffff = 0xbbeeb010 ∧ mix32 0x0000006f = 0x73bcd07e ∧
    mix32 0x00006261 = 0x5b87902c ∧ mix32 0x00636261 = 0xa7349db7 := by decide

theorem test_block32 : block32 0 [0x68, 0x65, 0x6c, 0x6c] = 0xef13efcd := by decide

theorem test_tail32 : tail32 0xef13efcd [0x6f] = 0x9caf3fb3 := by decide

theorem test_fmix32 : fmix32 0x00000001 = 0x514e28b7 ∧ fmix32 0xffffffff = 0x81f16f39 := by decide

theorem test_final32_takes_the_low_length : final32 0 [] 0x100000000 = 0 := by decide

theorem test_digest32_source_vectors :
    digest32 0 hello = 0x248bfa47 ∧ digest32 0 helloWorld = 0x149bbb7f ∧ digest32 0 fox = 0xd5c48bfc := by decide

theorem test_digest32_tails :
    digest32 0x9747b28c [0x61, 0x62] = 0x74875592 ∧ digest32 1 [0x61, 0x62, 0x63] = 0xaa75e9ff ∧
    digest32 0xffffffff [0, 0, 0, 0] = 0x2fb4abf3 ∧ digest32 0 (countBytes 17) = 0xcbe58dc6 := by decide

theorem test_mixK1_mixK2 : mixK1 1 = 0x34e09d0b6bdefe38 ∧ mixK2 1 = 0x4e26f5539bb7c37e := by decide

theorem test_block128 : block128 0 0 (countBytes 16) = (0xdcac505ea5c458df, 0x72927c4be244042d) ∧
    block128 0 0 (List.replicate 16 0) = (0x0000000052dce729, 0x00000001d699de82) := by decide

theorem test_fmix64 : fmix64 1 = 0xb456bcfc34c2cb2c ∧ fmix64 0xffffffffffffffff = 0x64b5720b4b825f21 := by decide

theorem test_digest128_source_vectors :
    digest128 0 0 hello = (0xcbd8a7b341bd9b02, 0x5b1e906a48ae1d19) ∧
    digest128 0 0 helloWorld = (0x342fac623a5ebc8e, 0x4cdcbc079642414d) := by decide

theorem test_digest128_seeds :
    digest128 1 2 helloWorld = (0x48bc33606ac78968, 0x3d17cb0ea010fba8) ∧
    digest128 0x100000000 0x100000000 hello = (0xcb6dbc235224436d, 0x5a48b94a697b6def) := by decide

theorem test_digest128_boundaries :
    digest128 0 0 (countBytes 8) = (0x47a7e1bdd68e2fc8, 0x60e6ee02ec31dcc7) ∧
    digest128 0 0 (countBytes 15) = (0x47231598fd4925e9, 0xcd846dee88c67de9) ∧
    digest128 0 0 (countBytes 17) = (0x5c76f40f9fe7c20e, 0xc15f026b9edaa824) := by decide

theorem test_digest64 : digest64 0 fox = 0xcd99481f9ee902c9 := by decide

theorem test_digest_bytes :
    bytes32 (State.reset.setDigest 0x248bfa47 0) = [0x24, 0x8b, 0xfa, 0x47] ∧
    (bytes128 (State.reset.setDigest 0xcbd8a7b341bd9b02 0x5b1e906a48ae1d19)).take 9 =
      [0xcb, 0xd8, 0xa7, 0xb3, 0x41, 0xbd, 0x9b, 0x02, 0x5b] := by decide

/-! ### One step of each command (95_test_vectors.md sections 2.6 and 2.7; the row is named) -/

/-- V11. -/
theorem test_nop : got (after (live32 7 8 9 [0x61] 1) 0x0) id = some (live32 7 8 9 [0x61] 1) := by decide

/-- X11. -/
theorem test_nop_with_reserved_bit : got (after State.reset 0x8000000000000000) State.errcode = some .illegal := by decide

/-- V1. -/
theorem test_init32 : got (after (State.reset.setArg0 0xffffffff00000001) 0x1)
    (fun t => (t.mode, t.h1, t.h2, t.blen, t.len)) = some (.m32, 1, 0, 0, 0) := by decide

/-- V14. -/
theorem test_init32_restarts : got (after (live32 0 0 5 [0x61, 0x62] 2) 0x1)
    (fun t => (t.mode, t.h1, t.blen, t.len)) = some (.m32, 0, 0, 0) := by decide

/-- V2. -/
theorem test_init128 : got (after ((State.reset.setArg0 1).setArg1 2) 0x2)
    (fun t => (t.mode, t.h1, t.h2, t.blen, t.len)) = some (.m128, 1, 2, 0, 0) := by decide

/-- V3. -/
theorem test_init64 : got (after ((State.reset.setArg0 0x100000000).setArg1 2) 0x3)
    (fun t => (t.mode, t.h1, t.h2)) = some (.m128, 0x100000000, 0x100000000) := by decide

/-- V10: the low bytes of ARG0 come first, and the third one stays pending. -/
theorem test_write_m32 : got (after (live32 0xAABBCCDD 7 0 [0x61, 0x62] 2) 0x304)
    (fun t => (t.h1, t.blen, t.len, t.pend)) = some (0x70e971c8, 1, 5, [0xBB]) := by decide

/-- V8: the sixteenth byte completes the block. -/
theorem test_write_m128 : got (after (live128 0x0f 0 0 0 (countBytes 15) 15) 0x104)
    (fun t => (t.h1, t.h2, t.blen, t.len)) = some (0xdcac505ea5c458df, 0x72927c4be244042d, 0, 16) := by decide

/-- V5. -/
theorem test_sum32 : got (after (live32 0 0 0xef13efcd [0x6f] 5) 0x5)
    (fun t => (t.dig0, t.dig1, t.h1, t.blen, t.len)) = some (0x248bfa47, 0, 0xef13efcd, 1, 5) := by decide

/-- X12: E_ILLEGAL has priority over E_NOINIT. -/
theorem test_sum32_illegal_first : got (after State.reset 0x1105) State.errcode = some .illegal := by decide

/-- The example of 41_engine128.md R142. -/
theorem test_sum128 : got (after (live128 0 0 0 0 helloWorld 12) 0x6) (fun t => (t.dig0, t.dig1)) =
    some (0x342fac623a5ebc8e, 0x4cdcbc079642414d) := by decide

/-- X4: E_MODE. -/
theorem test_sum128_in_m32 : got (after (live32 0 0 0 [] 0) 0x6) (fun t => (t.errcode, t.dig0)) =
    some (.mode, 0) := by decide

/-- V12. -/
theorem test_clrerr : got (after (State.reset.recordError .mode) 0x7) id = some State.reset := by decide

/-- X13: a malformed CLRERR does not run. -/
theorem test_clrerr_with_count : got (after State.reset 0x0107) State.errcode = some .illegal := by decide

/-! ### The port (95_test_vectors.md section 2.7) -/

/-- X1: STATUS after E_NOINIT. -/
theorem test_status_after_noinit : got (after State.reset 0x5) statusWord = some 0x20000 := by decide

/-- X16: a four-byte read of ARG0. -/
theorem test_narrow_read : got (perform (.access ⟨3, 0x18, 4, .read⟩) (State.reset.setArg0 9))
    (fun t => (t.errcode, t.reads)) = some (.bus, [⟨3, 0⟩]) := by decide

/-- X17: a misaligned write decodes nothing. -/
theorem test_misaligned_write : got (perform (.access ⟨0, 0x0C, 8, .write 0x1⟩) State.reset)
    (fun t => (t.errcode, t.mode)) = some (.bus, .none) := by decide

/-- X14: a write to DIG0. -/
theorem test_write_dig0 : got (perform (storeAccess 0 .dig0 1) State.reset) (fun t => (t.errcode, t.dig0)) =
    some (.bus, 0) := by decide

/-- X18: a read of CMD; and the value of ID. -/
theorem test_reads : got (perform (loadAccess 1 .cmd) State.reset) (fun t => (t.errcode, t.reads)) =
      some (.none, [⟨1, 0⟩]) ∧
    got (perform (loadAccess 1 .id) State.reset) State.reads = some [⟨1, 0x000000074D483343⟩] := by decide

/-- 30_encoding.md R94: the accesses of `data "hello, world"`. -/
theorem test_data_accesses : dataAccesses 0 helloWorld =
    [storeAccess 0 .arg0 0x77202c6f6c6c6568, storeAccess 0 .arg1 0x00000000646c726f, storeAccess 0 .cmd 0xC04] := by
  decide

theorem test_write_statement : writeStatement 0 17 = none ∧ writeStatement 0 16 = some (storeAccess 0 .cmd 0x1004) := by
  decide

/-- Two instances at 0x1000 and 0x1040, the first of them with 5 in ARG0. -/
def platform : List Instance := [⟨0x1000, State.reset.setArg0 5⟩, ⟨0x1040, State.reset⟩]

/-- A write of ARG0 of the second instance. -/
theorem test_bus_access :
    (match busAccess ⟨0, 0x1058, 8, .write 9⟩ platform with
      | .next q => q
      | .fault _ => []
      | .refused _ => []) = [⟨0x1000, State.reset.setArg0 5⟩, ⟨0x1040, State.reset.setArg0 9⟩] := by decide

/-! ### Witnesses: for each obligation with hypotheses, states and operands that meet them, clause by clause -/

/-- A live M32 stream with one pending byte. -/
def s32 : State := live32 0x6f6c6c6568 2 5 [0x61] 1

/-- A live M128 stream with fifteen pending bytes. -/
def s128 : State := live128 3 4 5 6 (countBytes 15) 15

/-- A write of CMD, as a shorthand. -/
def cmd (w : Word) : Event := storeAccess 0 .cmd w

theorem witness_OnlyTheResetInputResets :
    (∃ (s : State) (es : List Event), s.port = Event.reset :: es) ∧
    (∃ (s : State) (a : Access) (es : List Event) (t : State),
      s.port = Event.access a :: es ∧ step s = .next t ∧ s.mode ≠ .none) ∧
    (∃ i, i = Instr.init32 ∨ i = Instr.init128 ∨ i = Instr.init64) :=
  ⟨⟨s32.setPort [.reset], _, rfl⟩, ⟨s32.setPort [cmd 0], _, _, _, rfl, rfl, by decide⟩, ⟨.init64, by decide⟩⟩

/-- One word of each reserved kind at its boundary, and a word that is not reserved. -/
theorem witness_ReservedEncodingsRecordIllegal :
    (∀ w ∈ ([0x08, 0xFF, 0x1104, 0x1F04, 0x0100, 0x0105, 0x2001, 0x8000000000000000] : List Word), wordReserved w) ∧
    (∃ (s : State) (h : Nat) (es : List Event), s.port = storeAccess h .cmd 0x1104 :: es) ∧
    ¬ wordReserved 0x1004 :=
  ⟨by simp [wordReserved, wordOp, wordCount, wordRsv], ⟨s32.setPort [cmd 0x1104], 0, [], rfl⟩, by decide⟩

theorem witness_StepRunsTheDecodedCommand :
    ∃ (s : State) (h : Nat) (w : Word) (i : Instr) (es : List Event),
      s.port = storeAccess h .cmd w :: es ∧ decode w = .ok i :=
  ⟨s32.setPort [cmd 0x1004], 0, 0x1004, .write 16, [], rfl, by decide⟩

theorem witness_AccessesArePerformedInOrder : ∃ (s : State) (e : Event) (es : List Event), s.port = e :: es :=
  ⟨s32.setPort [loadAccess 4 .dig0, .reset], _, _, rfl⟩

theorem witness_IdleCoreStays : s32.port = [] := by decide

/-- Every register's offset, and a second read of the last one. -/
theorem witness_LegalReadReturnsTheRegister :
    (∀ n ∈ [0x00, 0x08, 0x10, 0x18, 0x20, 0x28, 0x30, 0x38], ∃ off : Fin 64, off.val = n ∧ off.val % 8 = 0) ∧
    (∃ (s : State) (h : Nat) (es : List Event) (es' : List Event),
      s.port = .access ⟨h, 0x38, 8, .read⟩ :: es ∧ es = .access ⟨h, 0x38, 8, .read⟩ :: es') :=
  ⟨by decide, ⟨s32.setPort [loadAccess 0 .len, loadAccess 0 .len], 0, _, [], rfl, rfl⟩⟩

/-- Either defect alone, on a read and on a write. -/
theorem witness_IllegalAccessOnlyRecordsBusError :
    (∃ (s : State) (h : Nat) (es : List Event), s.port = .access ⟨h, 0x18, 7, .read⟩ :: es) ∧
    ((7 : Nat) ≠ 8 ∨ (0x18 : Fin 64).val % 8 ≠ 0) ∧
    (∃ (s : State) (h : Nat) (es : List Event), s.port = .access ⟨h, 0x3F, 8, .write 1⟩ :: es) ∧
    ((8 : Nat) ≠ 8 ∨ (0x3F : Fin 64).val % 8 ≠ 0) :=
  ⟨⟨s32.setPort [.access ⟨0, 0x18, 7, .read⟩], 0, [], rfl⟩, by decide,
    ⟨s32.setPort [.access ⟨0, 0x3F, 8, .write 1⟩], 0, [], rfl⟩, by decide⟩

theorem witness_ReadOnlyWriteOnlyRecordsBusError :
    (∀ n ∈ [0x00, 0x10, 0x28, 0x30, 0x38], ∃ off : Fin 64, off.val = n) ∧
    (∃ (s : State) (h : Nat) (v : Word) (es : List Event), s.port = .access ⟨h, 0x38, 8, .write v⟩ :: es) :=
  ⟨by decide, ⟨s32.setPort [storeAccess 0 .len 7], 0, 7, [], rfl⟩⟩

theorem witness_ArgumentWriteStoresTheValue :
    (∃ (s : State) (h : Nat) (v : Word) (es : List Event) (h' : Nat) (es' : List Event),
      (0x18 : Fin 64).val = 0x18 ∧ s.port = .access ⟨h, 0x18, 8, .write v⟩ :: es ∧
      es = .access ⟨h', 0x18, 8, .read⟩ :: es') ∧
    (∃ (s : State) (h : Nat) (v : Word) (es : List Event) (h' : Nat) (es' : List Event),
      (0x20 : Fin 64).val = 0x20 ∧ s.port = .access ⟨h, 0x20, 8, .write v⟩ :: es ∧
      es = .access ⟨h', 0x20, 8, .read⟩ :: es') :=
  ⟨⟨s32.setPort [storeAccess 0 .arg0 7, loadAccess 1 .arg0], 0, 7, _, 1, [], by decide, rfl, rfl⟩,
    ⟨s32.setPort [storeAccess 0 .arg1 7, loadAccess 1 .arg1], 0, 7, _, 1, [], by decide, rfl, rfl⟩⟩

/-- The largest BLEN of each mode. -/
theorem witness_StatusWordFields :
    (State.reset.Inv ∧ State.reset.mode = .none) ∧
    ((live32 0 0 0 [1, 2, 3] 3).Inv ∧ (live32 0 0 0 [1, 2, 3] 3).mode = .m32) ∧
    (s128.Inv ∧ s128.mode = .m128 ∧ s128.blen = 15) := by decide

theorem witness_FirstErrorIsKept :
    ∃ (s : State) (e : Event) (es : List Event) (t : State),
      s.port = e :: es ∧ step s = .next t ∧ s.errcode ≠ .none ∧ rearms e = false :=
  ⟨(s32.recordError .noInit).setPort [cmd 0x6], _, _, _, rfl, rfl, by decide, by decide⟩

/-- An event of each code, and one of none. -/
theorem witness_ErrorTableIsFollowed :
    raisedError (cmd 0x1105) State.reset = some .illegal ∧ raisedError (cmd 0x5) State.reset = some .noInit ∧
    raisedError (cmd 0x6) s32 = some .mode ∧ raisedError (storeAccess 0 .id 0) s32 = some .bus ∧
    raisedError (cmd 0x5) s32 = none ∧
    (∃ (s : State) (e : Event) (es : List Event), s.port = e :: es ∧ s.errcode = .none) :=
  ⟨by decide, by decide, by decide, by decide, by decide, ⟨s32.setPort [cmd 0x6], _, _, rfl, rfl⟩⟩

theorem witness_ErrorsArePrecise :
    ∃ (s : State) (e : Event) (es : List Event) (c : ErrCode), s.port = e :: es ∧ raisedError e s = some c :=
  ⟨s32.setPort [.access ⟨2, 0x10, 4, .read⟩], _, _, .bus, rfl, by decide⟩

theorem witness_FinalErrorCheckIsEnough :
    ∃ (s : State) (pre : List Event) (e : Event) (post : List Event) (t : State),
      s.port = pre ++ e :: post ∧ (∀ x ∈ pre ++ e :: post, rearms x = false) ∧
      Host.Core.run Sys2Proof.core (pre.length + 1 + post.length) s = .next t ∧ t.errcode = .none :=
  ⟨State.reset.setPort [cmd 0x1, cmd 0x104, cmd 0x5], [cmd 0x1], cmd 0x104, [cmd 0x5], _, rfl, by decide, rfl, rfl⟩

theorem witness_ErrcodeEntersNoDigest :
    ∀ h off size, off.val = 0x10 → cmd 0x5 ≠ .access ⟨h, off, size, .read⟩ := by
  intro h off size _ he
  cases he

/-- A malformed word of each command at the least illegal count, and with the least reserved bit. -/
theorem witness_malformed_words :
    (∀ w ∈ ([0x0100, 0x2000] : List Word), wordOp w = 0 ∧ w ≠ 0x0) ∧
    (∀ w ∈ ([0x0101, 0x2001] : List Word), wordOp w = 1 ∧ w ≠ 0x1) ∧
    (∀ w ∈ ([0x0102, 0x2002] : List Word), wordOp w = 2 ∧ w ≠ 0x2) ∧
    (∀ w ∈ ([0x0103, 0x2003] : List Word), wordOp w = 3 ∧ w ≠ 0x3) ∧
    (∀ w ∈ ([0x1104, 0x2004] : List Word), wordOp w = 4 ∧ (16 < wordCount w ∨ wordRsv w ≠ 0)) ∧
    (∀ w ∈ ([0x0105, 0x2005] : List Word), wordOp w = 5 ∧ w ≠ 0x5) ∧
    (∀ w ∈ ([0x0106, 0x2006] : List Word), wordOp w = 6 ∧ w ≠ 0x6) ∧
    (∀ w ∈ ([0x0107, 0x2007] : List Word), wordOp w = 7 ∧ w ≠ 0x7) := by simp [wordOp, wordCount, wordRsv]

/-- The third clause; `witness_malformed_words` meets the second, and those of the obligation on NOP. -/
theorem witness_ClrerrClearsOnlyErrcode :
    ∃ (s : State) (e : Event) (es : List Event) (t : State),
      s.port = e :: es ∧ step s = .next t ∧ s.errcode ≠ .none ∧ t.errcode = .none :=
  ⟨(s32.recordError .bus).setPort [cmd 0x7], _, _, _, rfl, rfl, by decide, rfl⟩

/-- The premise of the clause that compares INIT128 with INIT64; those on INIT32 and INIT64 have no other. -/
theorem witness_Init128StartsAnM128Stream : State.reset.arg0 = State.reset.arg1 := by decide

/-- The mode premises of the two SUMs. -/
theorem witness_SumModes : s32.mode = .m32 ∧ s128.mode = .m128 ∧ State.reset.mode = .none := by decide

/-- Below the block and at the byte that fills it, in each engine. -/
theorem witness_AbsorbTakesOneByte :
    ((live32 0 0 0 [1, 2] 2).mode = .m32 ∧ (live32 0 0 0 [1, 2] 2).blen.toNat < 3) ∧
    ((live32 0 0 0 [1, 2, 3] 3).mode = .m32 ∧ (live32 0 0 0 [1, 2, 3] 3).blen.toNat = 3) ∧
    ((live128 0 0 0 0 (countBytes 14) 14).mode = .m128 ∧ (live128 0 0 0 0 (countBytes 14) 14).blen.toNat < 15) ∧
    (s128.mode = .m128 ∧ s128.blen.toNat = 15) := by decide

theorem witness_WriteAbsorbsItsChunk :
    ((16 : BitVec 5).toNat ≤ 16 ∧ s32.mode ≠ .none) ∧ ((0 : BitVec 5).toNat ≤ 16 ∧ State.reset.mode = .none) := by
  decide

theorem witness_ChunkBytesFollowTheLanes :
    ((7 : Nat) < 16 ∧ (7 : Nat) < 8) ∧ ((8 : Nat) < 16 ∧ (8 : Nat) ≤ 8 ∧ (8 : Nat) ≤ 15) ∧
    ((15 : Nat) < 16 ∧ (8 : Nat) ≤ 15 ∧ (15 : Nat) ≤ 15) ∧ ((8 : Nat) ≤ 8) := by decide

theorem witness_WriteProcessesAllFullBlocks :
    (16 : BitVec 5).toNat ≤ 16 ∧ (s32.Inv ∧ s32.mode = .m32) ∧ (s128.Inv ∧ s128.mode = .m128) := by decide

theorem witness_StepKeepsTheInvariant : ∃ s t : State, s.Inv ∧ step s = .next t :=
  ⟨s128.setPort [cmd 0x104], _, by decide, rfl⟩

/-- An event of each clause: a reset, each INIT, and one that restarts nothing. -/
theorem witness_ModeChangesOnlyByInit :
    (∃ (s : State) (e : Event) (es : List Event) (t : State), s.port = e :: es ∧ step s = .next t ∧ e = .reset) ∧
    issuedCommand (cmd 0x1) = some .init32 ∧ issuedCommand (cmd 0x2) = some .init128 ∧
    issuedCommand (cmd 0x3) = some .init64 ∧ restarts (cmd 0x104) = false :=
  ⟨⟨s32.setPort [.reset], _, _, _, rfl, rfl, rfl⟩, by decide, by decide, by decide, by decide⟩

/-- A SUM that changes the digest. -/
theorem witness_DigestChangesOnlyBySuccessfulSum :
    ∃ (s : State) (e : Event) (es : List Event) (t : State),
      s.port = e :: es ∧ step s = .next t ∧ ¬ s.sameDigest t :=
  ⟨s32.setPort [cmd 0x5], _, _, _, rfl, rfl, by decide⟩

theorem witness_ArgumentsChangeOnlyByHostWrite :
    ∃ (s : State) (e : Event) (es : List Event) (t : State), s.port = e :: es ∧ step s = .next t :=
  ⟨s32.setPort [storeAccess 0 .arg1 9], _, _, _, rfl, rfl⟩

/-- A restart, an unbound core, a bound one, and two lengths 2^32 apart. -/
theorem witness_LenCountsTheBytesWritten :
    (∃ (s : State) (es : List Event) (t : State),
      s.port = cmd 0x1004 :: es ∧ step s = .next t ∧ restarts (cmd 0x1004) = false ∧ s.mode ≠ .none) ∧
    (restarts (cmd 0x1004) = false ∧ State.reset.mode = .none) ∧ restarts .reset = true ∧ restarts (cmd 0x3) = true ∧
    (0x100000000 : Word).toNat % 2 ^ 32 = (0 : Word).toNat % 2 ^ 32 :=
  ⟨⟨s128.setPort [cmd 0x1004], _, _, rfl, rfl, by decide, by decide⟩, by decide, by decide, by decide, by decide⟩

/-- Two different states that look the same: unbound with other accumulators, bound with other bytes behind BLEN. -/
theorem witness_HiddenStateIsUnobservable :
    (State.reset.looksLike (State.reset.setAccumulators 1 2) ∧ State.reset.setAccumulators 1 2 ≠ State.reset) ∧
    (s32.looksLike { s32 with buf := bufOf [0x61, 0x62] } ∧ { s32 with buf := bufOf [0x61, 0x62] } ≠ s32) := by
  refine ⟨⟨?_, by decide⟩, ⟨?_, by decide⟩⟩ <;>
    (unfold State.looksLike; decide)

/-- A run of WRITE, SUM, a failed access and an argument write, which no restart is among. -/
theorem witness_Streaming :
    (∀ e ∈ [cmd 0x104, cmd 0x5, storeAccess 0 .len 0, storeAccess 0 .arg0 7, cmd 0x804], restarts e = false) ∧
    (∃ (s : State) (h h' : Nat) (es rest : List Event), s.port = issue h .init32 :: (es ++ issue h' .sum32 :: rest)) ∧
    (∃ (s : State) (h h' : Nat) (es rest : List Event),
      s.port = issue h .init128 :: (es ++ issue h' .sum128 :: rest)) ∧
    (∃ (s : State) (h h' : Nat) (es rest : List Event),
      s.port = issue h .init64 :: (es ++ issue h' .sum128 :: rest)) :=
  ⟨by decide, ⟨s32.setPort [issue 0 .init32, cmd 0x104, issue 1 .sum32], 0, 1, [cmd 0x104], [], rfl⟩,
    ⟨s32.setPort [issue 0 .init128, cmd 0x104, issue 1 .sum128], 0, 1, [cmd 0x104], [], rfl⟩,
    ⟨s32.setPort [issue 0 .init64, cmd 0x104, issue 1 .sum128], 0, 1, [cmd 0x104], [], rfl⟩⟩

/-- The chunks "hel", "lo" against the one chunk "hello". -/
theorem witness_ChunkBoundariesDoNotMatter :
    ∃ (s s' : State) (es es' : List Event), s' = s.setPort es' ∧ s.port = es ∧ s.mode ≠ .none ∧
      (∀ e ∈ es ++ es', restarts e = false) ∧ messageOf es s.arg0 s.arg1 = messageOf es' s.arg0 s.arg1 :=
  ⟨s32.setPort [cmd 0x304, storeAccess 0 .arg0 0x6f6c, cmd 0x204], _, _, [cmd 0x504], rfl, rfl, by decide, by decide,
    by decide⟩

/-- Both engines; between the SUMs an argument write and a WRITE that is refused. -/
theorem witness_SumIsASnapshot :
    ((s32.mode = .m32 ∧ Instr.sum32 = .sum32) ∨ (s32.mode = .m128 ∧ Instr.sum32 = .sum128)) ∧
    ((s128.mode = .m32 ∧ Instr.sum128 = .sum32) ∨ (s128.mode = .m128 ∧ Instr.sum128 = .sum128)) ∧
    (∀ e ∈ [storeAccess 0 .arg0 7, cmd 0x1104], restarts e = false ∧ ∀ n, issuedCommand e ≠ some (.write n)) ∧
    (∃ (s : State) (h h' : Nat) (rest : List Event), s.mode = .m128 ∧ s.port =
      issue h .sum128 :: ([storeAccess 0 .arg0 7, cmd 0x1104] ++ issue h' .sum128 :: rest)) :=
  ⟨by decide, by decide, by decide,
    ⟨s128.setPort [issue 0 .sum128, storeAccess 0 .arg0 7, cmd 0x1104, issue 1 .sum128], 0, 1, [], rfl, rfl⟩⟩

theorem witness_Hash32ReturnsTheDigest :
    ∃ (s : State) (h : Nat) (seed : Word32) (m : List Byte) (rest : List Event),
      s.port = hash32Accesses h seed m ++ rest :=
  ⟨s128.setPort (hash32Accesses 3 1 (countBytes 17) ++ [.reset]), 3, 1, countBytes 17, [.reset], rfl⟩

theorem witness_Hash64AndHash128ReturnTheDigest :
    (∃ (s : State) (h : Nat) (seed : Word) (m : List Byte) (rest : List Event),
      s.port = hash64Accesses h seed m ++ rest) ∧
    (∃ (s : State) (h : Nat) (s1 s2 : Word) (m : List Byte) (rest : List Event),
      s.port = hash128Accesses h s1 s2 m ++ rest) :=
  ⟨⟨s32.setPort (hash64Accesses 3 1 (countBytes 17) ++ []), 3, 1, countBytes 17, [], rfl⟩,
    ⟨s32.setPort (hash128Accesses 3 1 2 (countBytes 16) ++ []), 3, 1, 2, countBytes 16, [], rfl⟩⟩

theorem witness_Block128UpdatesH2FromTheNewH1 : ∃ h1 h2 k1 n1 : Word,
    n1 = ((h1 ^^^ (k1 * 0x87c37b91114253d5).rotateLeft 31 * 0x4cf5ad432745937f).rotateLeft 27 + h2) * 5 +
      0x52dce729 :=
  ⟨0, 0, 0, 0x52dce729, by decide⟩

/-- The boundaries of the three clauses: m = 0, 1, 8, 9 and 15. -/
theorem witness_Tail128SplitsAtByteEight :
    ((0 : Nat) ≤ 15 ∧ (0 : Nat) = 0) ∧ ((1 : Nat) ≤ 15 ∧ 0 < 1 ∧ (1 : Nat) ≤ 8) ∧
    ((8 : Nat) ≤ 15 ∧ 0 < 8 ∧ (8 : Nat) ≤ 8) ∧ ((9 : Nat) ≤ 15 ∧ 8 < 9) ∧ ((15 : Nat) ≤ 15 ∧ 8 < 15) := by decide

/-- The longest inputs of the two engines' laws: three zero bytes, and a tail of eight. -/
theorem witness_DigestLaws : (3 : Nat) ≤ 3 ∧ (countBytes 8).length ≤ 8 := by decide

/-- The first and the last byte of the second window, and the bytes beside it. -/
theorem witness_InstancesAreIndependent :
    platformWf platform = true ∧ platform[1]? = some ⟨0x1040, State.reset⟩ ∧
    ((0x1040 : Nat) + (0 : Fin 64).val = 0x1040) ∧ ((0x1040 : Nat) + (63 : Fin 64).val = 0x107F) ∧
    ((0x103F : Nat) < 0x1040 ∨ 0x1040 + 64 ≤ 0x103F) ∧ ((0x1080 : Nat) < 0x1040 ∨ 0x1040 + 64 ≤ 0x1080) := by decide

end Sys2Proof.Machine.Tests
end

section
/-! SUPPORT. What a performed event did, in three cases, and what each leaves of the fields the rules of
10_state.md speak of. -/

namespace Sys2Proof.Machine

/-! ### What an event did -/

/-- A step with no pending event leaves the state as it is. -/
theorem step_of_no_port {s : State} (h : s.port = []) : step s = .next s := by
  unfold step
  rw [h]

/-- What the event `e` made of the state `s`, ERRCODE and the returned values apart: a reset, a command that takes
effect, or anything else, which at most stores an argument. -/
inductive Performed (e : Event) (s : State) : State → Prop where
  | reset (he : e = .reset) : Performed e s s.hardReset
  | command (i : Instr) (hi : issuedCommand e = some i) (hm : modeError i s.mode = none)
      (ha : argsAfter e s.arg0 s.arg1 = (s.arg0, s.arg1)) : Performed e s (effect i s)
  | quiet {t : State} (he : e ≠ .reset) (hi : ∀ i, issuedCommand e = some i → modeError i s.mode ≠ none)
      (hs : s.sameStream t) (hd : s.sameDigest t) (ha : (t.arg0, t.arg1) = argsAfter e s.arg0 s.arg1) :
      Performed e s t

theorem performed_of_perform {e : Event} {s t : State} (h : perform e s = .next t) : Performed e s t := by
  rcases perform_cases e s with ⟨he, hp⟩ | ⟨c, hr, hi, hp, ha⟩ | ⟨-, hi, ha, _, _, he, -, hp⟩ |
    ⟨-, hi, _, _, _, he, ⟨-, ha, hp⟩ | ⟨-, ha, hp⟩⟩ | ⟨-, ha, _, _, _, i, -, -, -, hi, -, hm, hp⟩
  · rw [hp] at h
    cases h
    exact .reset he
  · have he : e ≠ .reset := by
      rintro rfl
      cases hr
    have hc : ∀ i, issuedCommand e = some i → modeError i s.mode ≠ none := by
      rcases hi with hi | ⟨j, hj, hc⟩ <;> simp_all
    rcases hp with ⟨_, _, _, -, hp⟩ | ⟨-, hp⟩ <;> rw [hp] at h <;> cases h <;>
      exact .quiet he hc (by simp [State.sameStream]) (by simp [State.sameDigest]) ha.symm
  all_goals
    rw [hp] at h
    cases h
  pick_goal 4
  · exact .command i hi hm ha
  all_goals
    exact .quiet (by simp [he]) (by simp [hi]) (by simp [State.sameStream]) (by simp [State.sameDigest]) ha.symm

/-- The step form: the event is performed on the state without it on the port. -/
theorem performed_of_step {s t : State} {e : Event} {es : List Event} (hp : s.port = e :: es)
    (h : step s = .next t) : Performed e (s.setPort es) t :=
  performed_of_perform (by rw [← step_of_port hp, h])

theorem restarts_iff (e : Event) : restarts e = true ↔ e = .reset ∨ issuedCommand e = some .init32 ∨
    issuedCommand e = some .init128 ∨ issuedCommand e = some .init64 := by
  simp only [restarts, Bool.or_eq_true, beq_iff_eq, or_assoc]

theorem not_restarts_iff (e : Event) : restarts e = false ↔ e ≠ .reset ∧ issuedCommand e ≠ some .init32 ∧
    issuedCommand e ≠ some .init128 ∧ issuedCommand e ≠ some .init64 := by
  rw [Bool.eq_false_iff, ne_eq, restarts_iff]
  simp only [not_or]

/-- No mode forbids an INIT, so an event that is no reset and issues no command its mode allows restarts nothing. -/
theorem not_restarts_of_quiet {e : Event} {m : Mode} (he : e ≠ .reset)
    (hi : ∀ i, issuedCommand e = some i → modeError i m ≠ none) : restarts e = false :=
  (not_restarts_iff e).2 ⟨he, fun h => hi _ h rfl, fun h => hi _ h rfl, fun h => hi _ h rfl⟩

/-! ### The modes in which a command takes effect -/

@[simp] theorem modeError_write_eq_none (n : BitVec 5) (m : Mode) :
    modeError (.write n) m = none ↔ m ≠ .none := by cases m <;> simp [modeError]

@[simp] theorem modeError_sum32_eq_none (m : Mode) : modeError .sum32 m = none ↔ m = .m32 := by
  cases m <;> simp [modeError]

@[simp] theorem modeError_sum128_eq_none (m : Mode) : modeError .sum128 m = none ↔ m = .m128 := by
  cases m <;> simp [modeError]

/-! ### The fields bytes leave alone -/

@[simp] theorem absorbAll_mode (s : State) (bs : List Byte) : (absorbAll s bs).mode = s.mode :=
  (absorbAll_frame bs s).1

@[simp] theorem absorbAll_dig0 (s : State) (bs : List Byte) : (absorbAll s bs).dig0 = s.dig0 := by
  obtain ⟨-, -, -, -, h, -⟩ := absorbAll_frame bs s
  exact h

@[simp] theorem absorbAll_dig1 (s : State) (bs : List Byte) : (absorbAll s bs).dig1 = s.dig1 := by
  obtain ⟨-, -, -, -, -, h, -⟩ := absorbAll_frame bs s
  exact h

@[simp] theorem absorbAll_len (s : State) (bs : List Byte) :
    (absorbAll s bs).len = s.len + BitVec.ofNat 64 bs.length := by
  obtain ⟨-, -, -, -, -, -, -, -, h⟩ := absorbAll_frame bs s
  exact h

end Sys2Proof.Machine
end

section
/-! PROOF. The invariant of 10_state.md R36 and R38: it holds after reset and every step keeps it. -/

namespace Sys2Proof.Machine

theorem inv_of_none {s : State} (hm : s.mode = .none) (hb : s.blen = 0) (hl : s.len = 0) : s.Inv := by
  simp [State.Inv, hm, hb, hl]

theorem inv_of_m32 {s : State} (hm : s.mode = .m32) (hb : s.blen.toNat < 4)
    (hl : s.blen.toNat = s.len.toNat % 4) (h1 : s.h1.toNat < 2 ^ 32) (h2 : s.h2 = 0) : s.Inv := by
  refine ⟨?_, fun _ => ⟨hb, hl, h1, h2⟩, ?_⟩ <;> simp [hm]

theorem inv_of_m128 {s : State} (hm : s.mode = .m128) (hl : s.blen.toNat = s.len.toNat % 16) : s.Inv := by
  refine ⟨?_, ?_, fun _ => hl⟩ <;> simp [hm]

/-- The invariant speaks of the stream alone. -/
theorem inv_of_sameStream {s t : State} (h : s.sameStream t) (hs : s.Inv) : t.Inv := by
  obtain ⟨hm, h1, h2, -, hb, hl⟩ := h
  rw [State.Inv, hm, h1, h2, hb, hl]
  exact hs

/-- H1 in M32 is its low word. -/
theorem eq_setWidth_of_lt {x : Word} (h : x.toNat < 2 ^ 32) : x = (x.setWidth 32).setWidth 64 := by
  bv_omega

/-- Bytes keep the invariant of the M32 stream: BLEN and LEN move together, and a block leaves a 32-bit H1. -/
theorem inv_absorbAll {s : State} (bs : List Byte) (hm : s.mode ≠ .none) (hs : s.Inv) : (absorbAll s bs).Inv := by
  obtain ⟨-, h32, h128⟩ := hs
  cases hmode : s.mode with
  | none => exact absurd hmode hm
  | m32 =>
    obtain ⟨hb, hl, h1, h2⟩ := h32 hmode
    obtain ⟨k1, k2, -, k4⟩ := absorbAll_m32 bs hmode hb (eq_setWidth_of_lt h1)
    refine inv_of_m32 (by simpa using hmode) (by omega) ?_ ?_ (k2.trans h2)
    · rw [k4, hl, absorbAll_len, BitVec.toNat_add, BitVec.toNat_ofNat]
      omega
    · rw [k1, BitVec.toNat_setWidth]
      omega
  | m128 =>
    obtain ⟨-, -, k4⟩ := absorbAll_m128 bs hmode
    refine inv_of_m128 (by simpa using hmode) ?_
    rw [k4, h128 hmode, absorbAll_len, BitVec.toNat_add, BitVec.toNat_ofNat]
    omega

theorem inv_effect {i : Instr} {s : State} (hm : modeError i s.mode = none) (hs : s.Inv) : (effect i s).Inv := by
  cases i with
  | nop => exact hs
  | init32 =>
    refine inv_of_m32 rfl (by simp [effect]) (by simp [effect]) ?_ rfl
    rw [effect, startStream_h1, BitVec.toNat_setWidth]
    omega
  | init128 => exact inv_of_m128 rfl (by simp [effect])
  | init64 => exact inv_of_m128 rfl (by simp [effect])
  | write n => exact inv_absorbAll _ ((modeError_write_eq_none n _).1 hm) hs
  | sum32 => exact inv_of_sameStream (by simp [effect, State.sameStream]) hs
  | sum128 => exact inv_of_sameStream (by simp [effect, State.sameStream]) hs
  | clrerr => exact inv_of_sameStream (by simp [effect, State.sameStream]) hs

theorem inv_perform {e : Event} {s t : State} (hs : s.Inv) (h : perform e s = .next t) : t.Inv := by
  cases performed_of_perform h with
  | reset => exact inv_of_none rfl rfl rfl
  | command i _ hm => exact inv_effect hm hs
  | quiet _ _ hst => exact inv_of_sameStream hst hs

/-- Settles O35: a step is idle or performs one event, and a reset, a command in its mode and any other event each
keep the invariant. -/
theorem stepKeepsTheInvariant : Obligations.StepKeepsTheInvariant := by
  intro s t hs h
  cases hp : s.port with
  | nil =>
    rw [step_of_no_port hp] at h
    cases h
    exact hs
  | cons e es =>
    rw [step_of_port hp] at h
    exact inv_perform (inv_of_sameStream (by simp [State.sameStream]) hs) h

/-- Settles O34: nothing is bound, and BLEN and LEN are 0. -/
theorem resetMeetsTheInvariant : Obligations.ResetMeetsTheInvariant := inv_of_none rfl rfl rfl

end Sys2Proof.Machine
end

section
/-! PROOF. No rule reads the accumulators of an unbound core or the dead bytes of BUF (10_state.md R35, R37, R39):
looking alike is kept by every operation, up to the step. -/

namespace Sys2Proof.Machine

/-! ### The named updates -/

theorem looksLike_iff (s t : State) : s.looksLike t ↔
    t.mode = s.mode ∧ t.errcode = s.errcode ∧ t.arg0 = s.arg0 ∧ t.arg1 = s.arg1 ∧ t.dig0 = s.dig0 ∧
      t.dig1 = s.dig1 ∧ t.len = s.len ∧ t.blen = s.blen ∧ t.port = s.port ∧ t.reads = s.reads ∧
      (s.mode ≠ .none → t.h1 = s.h1 ∧ t.h2 = s.h2 ∧ t.pend = s.pend) := by
  simp only [State.looksLike, State.sameOperands, State.sameDigest, State.samePort, and_assoc]

/-- What looks alike has the same readable registers. -/
theorem looksLike_regValue {s s' : State} (h : s.looksLike s') (r : Reg) : regValue s' r = regValue s r := by
  obtain ⟨hm, he, ⟨ha0, ha1⟩, ⟨hd0, hd1⟩, hl, hb, -⟩ := h
  cases r <;> simp [regValue, statusWord, *]

section updates

variable {s s' : State} (h : s.looksLike s')
include h

theorem looksLike_recordError (c : ErrCode) : (s.recordError c).looksLike (s'.recordError c) := by
  simp_all [looksLike_iff]

theorem looksLike_clearError : s.clearError.looksLike s'.clearError := by
  simp_all [looksLike_iff]

theorem looksLike_setArg0 (v : Word) : (s.setArg0 v).looksLike (s'.setArg0 v) := by
  simp_all [looksLike_iff]

theorem looksLike_setArg1 (v : Word) : (s.setArg1 v).looksLike (s'.setArg1 v) := by
  simp_all [looksLike_iff]

theorem looksLike_setDigest (d0 d1 : Word) : (s.setDigest d0 d1).looksLike (s'.setDigest d0 d1) := by
  simp_all [looksLike_iff]

theorem looksLike_returnRead (host : Nat) (v : Word) : (s.returnRead host v).looksLike (s'.returnRead host v) := by
  simp_all [looksLike_iff]

theorem looksLike_setPort (es : List Event) : (s.setPort es).looksLike (s'.setPort es) := by
  simp_all [looksLike_iff]

theorem looksLike_hardReset : s.hardReset.looksLike s'.hardReset := by
  simp_all [looksLike_iff]

theorem looksLike_startStream (m : Mode) (x1 x2 : Word) :
    (s.startStream m x1 x2).looksLike (s'.startStream m x1 x2) := by
  simp_all [looksLike_iff]

end updates

/-! ### Absorbing bytes -/

/-- A byte that does not complete a block moves the cursor, whatever BLEN is. -/
theorem absorb_of_not_full {s : State} {b : Byte} (h : s.mode.blockSize ≠ some (s.blen.toNat + 1)) :
    absorb s b = (s.putByte b).advanceCursor := if_neg h

/-- The pending bytes after the cursor moved: at the end of its four bits it wraps and leaves none. -/
theorem putByte_advanceCursor_pend (s : State) (b : Byte) :
    (s.putByte b).advanceCursor.pend = (s.pend ++ [b]).take (s.blen + 1).toNat := by
  have hle : (s.blen + 1).toNat ≤ s.blen.toNat + 1 := by bv_omega
  rw [← putByte_take, List.take_take, Nat.min_eq_left hle]
  rfl

/-- The live stream after a byte is a function of the live stream before it. -/
theorem absorb_live {s s' : State} (b : Byte) (hne : s.mode ≠ .none) (hm : s'.mode = s.mode)
    (hb : s'.blen = s.blen) (h1 : s'.h1 = s.h1) (h2 : s'.h2 = s.h2) (hp : s'.pend = s.pend) :
    (absorb s' b).blen = (absorb s b).blen ∧ (absorb s' b).h1 = (absorb s b).h1 ∧
      (absorb s' b).h2 = (absorb s b).h2 ∧ (absorb s' b).pend = (absorb s b).pend := by
  by_cases hf : s.mode.blockSize = some (s.blen.toNat + 1)
  · cases hmode : s.mode with
    | none => exact absurd hmode hne
    | m32 =>
      have h3 : s.blen.toNat = 3 := by simpa [hmode, Mode.blockSize, eq_comm] using hf
      obtain ⟨k1, k2, k3, k4⟩ := absorb_full32 b hmode h3
      obtain ⟨k1', k2', k3', k4'⟩ := absorb_full32 b (hm.trans hmode) (hb ▸ h3)
      rw [k1, k2, k3, k4, k1', k2', k3', k4', h1, h2, hp]
      exact ⟨rfl, rfl, rfl, rfl⟩
    | m128 =>
      have h15 : s.blen.toNat = 15 := by simpa [hmode, Mode.blockSize, eq_comm] using hf
      obtain ⟨k1, k3, k4⟩ := absorb_full128 b hmode h15
      obtain ⟨k1', k3', k4'⟩ := absorb_full128 b (hm.trans hmode) (hb ▸ h15)
      rw [h1, h2, hp, ← k1, Prod.mk.injEq] at k1'
      exact ⟨k4'.trans k4.symm, k1'.1, k1'.2, k3'.trans k3.symm⟩
  · rw [absorb_of_not_full hf, absorb_of_not_full (by rwa [hm, hb]), putByte_advanceCursor_pend,
      putByte_advanceCursor_pend, hb, hp]
    simp [hb, h1, h2]

theorem looksLike_absorb {s s' : State} (h : s.looksLike s') (b : Byte) (hne : s.mode ≠ .none) :
    (absorb s b).looksLike (absorb s' b) := by
  rw [looksLike_iff] at h ⊢
  obtain ⟨hm, he, ha0, ha1, hd0, hd1, hl, hb, hpo, hr, hh⟩ := h
  obtain ⟨h1, h2, hp⟩ := hh hne
  obtain ⟨kb, k1, k2, kp⟩ := absorb_live b hne hm hb h1 h2 hp
  obtain ⟨f1, f2, f3, f4, f5, f6, f7, f8, f9⟩ := absorb_frame s b
  obtain ⟨g1, g2, g3, g4, g5, g6, g7, g8, g9⟩ := absorb_frame s' b
  simp_all

theorem looksLike_absorbAll (bs : List Byte) {s s' : State} (h : s.looksLike s') (hne : s.mode ≠ .none) :
    (absorbAll s bs).looksLike (absorbAll s' bs) := by
  induction bs generalizing s s' with
  | nil => exact h
  | cons b bs ih =>
    refine ih (looksLike_absorb h b hne) ?_
    rwa [(absorb_frame s b).1]

/-! ### Commands -/

/-- A command in its mode: the INITs start from the operands alone, and the others read the live stream of a bound
core. -/
theorem looksLike_effect {i : Instr} {s s' : State} (h : s.looksLike s') (hi : modeError i s.mode = none) :
    (effect i s).looksLike (effect i s') := by
  obtain ⟨-, -, ha0, ha1, -, -, hl, -, -, -, hh⟩ := (looksLike_iff s s').1 h
  cases i with
  | nop => exact h
  | init32 =>
    rw [effect, effect, seed32, seed32, ha0]
    exact looksLike_startStream h _ _ _
  | init128 =>
    rw [effect, effect, ha0, ha1]
    exact looksLike_startStream h _ _ _
  | init64 =>
    rw [effect, effect, ha0]
    exact looksLike_startStream h _ _ _
  | write n =>
    rw [effect, effect, ha0, ha1]
    exact looksLike_absorbAll _ h ((modeError_write_eq_none n _).1 hi)
  | sum32 =>
    obtain ⟨h1, -, hp⟩ := hh (by simp [(modeError_sum32_eq_none _).1 hi])
    rw [effect, effect, h1, hp, hl]
    exact looksLike_setDigest h _ _
  | sum128 =>
    obtain ⟨h1, h2, hp⟩ := hh (by simp [(modeError_sum128_eq_none _).1 hi])
    rw [effect, effect, h1, h2, hp, hl]
    exact looksLike_setDigest h _ _
  | clrerr => exact looksLike_clearError h

/-! ### Outcomes -/

/-- Both outcomes are next states, and these look alike. -/
def outcomesLookAlike (r r' : Result) : Prop := ∃ t t' : State, r = .next t ∧ r' = .next t' ∧ t.looksLike t'

theorem outcomesLookAlike_next {t t' : State} (h : t.looksLike t') : outcomesLookAlike (.next t) (.next t') :=
  ⟨t, t', rfl, rfl, h⟩

section outcomes

variable {s s' : State} (h : s.looksLike s')
include h

theorem outcomesLookAlike_raise (c : ErrCode) : outcomesLookAlike (raise c s) (raise c s') :=
  outcomesLookAlike_next (looksLike_recordError h c)

/-- MODE is readable, so both cores refuse a command or neither does. -/
theorem outcomesLookAlike_exec {i : Instr} (hw : i.wf = true) : outcomesLookAlike (exec i s) (exec i s') := by
  have hm : s'.mode = s.mode := h.1
  cases hi : modeError i s.mode with
  | some c =>
    rw [exec_of_modeError hw hi, exec_of_modeError hw (by rw [hm, hi])]
    exact outcomesLookAlike_next (looksLike_recordError h c)
  | none =>
    rw [exec_of_no_modeError hw hi, exec_of_no_modeError hw (by rw [hm, hi])]
    exact outcomesLookAlike_next (looksLike_effect h hi)

theorem outcomesLookAlike_execute (w : Word) : outcomesLookAlike (execute w s) (execute w s') := by
  cases hd : decode w with
  | error r =>
    simp only [execute, hd]
    exact outcomesLookAlike_raise h _
  | ok i =>
    obtain ⟨-, hw, -⟩ := decode_ok hd
    simp only [execute, hd]
    exact outcomesLookAlike_exec h hw

theorem outcomesLookAlike_regWrite (r : Reg) (v : Word) : outcomesLookAlike (regWrite r v s) (regWrite r v s') := by
  cases r with
  | cmd => exact outcomesLookAlike_execute h v
  | arg0 => exact outcomesLookAlike_next (looksLike_setArg0 h v)
  | arg1 => exact outcomesLookAlike_next (looksLike_setArg1 h v)
  | _ => exact outcomesLookAlike_raise h .bus

theorem outcomesLookAlike_portRead (host : Nat) (off : Fin 64) (size : Nat) :
    outcomesLookAlike (portRead host off size s) (portRead host off size s') := by
  unfold portRead
  split
  · rw [looksLike_regValue h]
    exact outcomesLookAlike_next (looksLike_returnRead h _ _)
  · exact outcomesLookAlike_next (looksLike_returnRead (looksLike_recordError h _) _ _)

theorem outcomesLookAlike_portWrite (off : Fin 64) (size : Nat) (v : Word) :
    outcomesLookAlike (portWrite off size v s) (portWrite off size v s') := by
  unfold portWrite
  split
  · exact outcomesLookAlike_regWrite h _ v
  · exact outcomesLookAlike_raise h .bus

theorem outcomesLookAlike_perform (e : Event) : outcomesLookAlike (perform e s) (perform e s') := by
  match e with
  | .reset => exact outcomesLookAlike_next (looksLike_hardReset h)
  | .access ⟨host, off, size, .read⟩ => exact outcomesLookAlike_portRead h host off size
  | .access ⟨_, off, size, .write v⟩ => exact outcomesLookAlike_portWrite h off size v

theorem outcomesLookAlike_step : outcomesLookAlike (step s) (step s') := by
  obtain ⟨-, -, -, -, -, -, -, -, hp, -⟩ := (looksLike_iff s s').1 h
  cases hs : s.port with
  | nil =>
    rw [step_of_no_port hs, step_of_no_port (hp.trans hs)]
    exact outcomesLookAlike_next h
  | cons e es =>
    rw [step_of_port hs, step_of_port (hp.trans hs)]
    exact outcomesLookAlike_perform (looksLike_setPort h es) e

end outcomes

/-- Looking alike is a bisimulation: runs of one length keep it. -/
theorem outcomesLookAlike_run (k : Nat) {s s' : State} (h : s.looksLike s') :
    outcomesLookAlike (Host.Core.run Sys2Proof.core k s) (Host.Core.run Sys2Proof.core k s') := by
  induction k generalizing s s' with
  | zero => exact outcomesLookAlike_next h
  | succ k ih =>
    obtain ⟨t, t', ht, ht', hl⟩ := outcomesLookAlike_step h
    rw [run_succ k ht, run_succ k ht']
    exact ih hl

/-- Settles O40: looking alike holds along both runs, and it includes the values returned. -/
theorem hiddenStateIsUnobservable : Obligations.HiddenStateIsUnobservable := by
  intro k s s' h
  obtain ⟨t, t', ht, ht', hl⟩ := outcomesLookAlike_run k h
  obtain ⟨-, -, -, -, -, -, -, -, -, hr, -⟩ := (looksLike_iff t t').1 hl
  exact ⟨t, t', ht, ht', hl, hr⟩

end Sys2Proof.Machine
end

section
/-! PROOF. Which events change MODE, DIG0 and DIG1, ARG0 and ARG1, and LEN (10_state.md R24 to R32). -/

namespace Sys2Proof.Machine

/-- Settles O36: of the commands only the INITs set MODE, and no mode forbids them. -/
theorem modeChangesOnlyByInit : Obligations.ModeChangesOnlyByInit := by
  intro s e es t hp h
  cases performed_of_step hp h with
  | reset he =>
    subst he
    simp [issuedCommand, restarts]
  | command i hi =>
    have he : e ≠ .reset := by
      rintro rfl
      cases hi
    cases i <;> simp [he, hi, restarts, effect]
  | quiet he hi hs =>
    obtain ⟨-, h32, h128, h64⟩ := (not_restarts_iff e).1 (not_restarts_of_quiet he hi)
    exact ⟨fun h => absurd h he, fun h => absurd h h32, fun h => (h.elim h128 h64).elim, fun _ => hs.1⟩

/-- Settles O37: only the two SUMs write the digest, each in its own mode. -/
theorem digestChangesOnlyBySuccessfulSum : Obligations.DigestChangesOnlyBySuccessfulSum := by
  intro s e es t hp h hd
  cases performed_of_step hp h with
  | reset he => exact .inl he
  | command i hi hm =>
    cases i with
    | sum32 => exact .inr (.inl ⟨hi, (modeError_sum32_eq_none _).1 hm⟩)
    | sum128 => exact .inr (.inr ⟨hi, (modeError_sum128_eq_none _).1 hm⟩)
    | _ => exact absurd (by simp [State.sameDigest, effect]) hd
  | quiet _ _ _ hq => exact absurd hq hd

/-- Settles O38: no command touches the operands, and every other event stores what it writes. -/
theorem argumentsChangeOnlyByHostWrite : Obligations.ArgumentsChangeOnlyByHostWrite := by
  intro s e es t hp h
  cases performed_of_step hp h with
  | reset he =>
    subst he
    rfl
  | command i _ _ ha =>
    obtain ⟨-, -, h0, h1⟩ := effect_frame i (s.setPort es)
    rw [h0, h1]
    exact ha.symm
  | quiet _ _ _ _ ha => exact ha

theorem len_of_restarts {e : Event} {s t : State} (hr : restarts e = true) (h : Performed e s t) : t.len = 0 := by
  cases h with
  | reset => rfl
  | command i hi =>
    rcases (restarts_iff e).1 hr with rfl | hj | hj | hj
    · cases hi
    all_goals
      obtain rfl := Option.some.inj (hi.symm.trans hj)
      rfl
  | quiet he hi => simp [not_restarts_of_quiet he hi] at hr

/-- Unbound, NOP and CLRERR alone take effect. -/
theorem len_of_unbound {e : Event} {s t : State} (hr : restarts e = false) (hm : s.mode = .none)
    (h : Performed e s t) : t.len = s.len := by
  obtain ⟨hne, h32, h128, h64⟩ := (not_restarts_iff e).1 hr
  cases h with
  | reset he => exact absurd he hne
  | command i hi hme =>
    cases i with
    | nop => rfl
    | clrerr => rfl
    | init32 => exact absurd hi h32
    | init128 => exact absurd hi h128
    | init64 => exact absurd hi h64
    | write n => exact absurd hm ((modeError_write_eq_none n _).1 hme)
    | sum32 => simp [hm] at hme
    | sum128 => simp [hm] at hme
  | quiet _ _ hs =>
    obtain ⟨-, -, -, -, -, hl⟩ := hs
    exact hl

/-- Bound, the event absorbs the bytes it writes, and each of them counts one. -/
theorem len_of_bound {e : Event} {s t : State} (hr : restarts e = false) (hm : s.mode ≠ .none)
    (h : perform e s = .next t) :
    t.len.toNat = (s.len.toNat + (bytesWritten e s.arg0 s.arg1).length) % 2 ^ 64 := by
  obtain ⟨-, -, ⟨-, -, -, -, -, hl⟩, -⟩ := perform_live hr hm h
  rw [hl, absorbAll_len, BitVec.toNat_add, BitVec.toNat_ofNat, Nat.add_mod_mod]

theorem final32_of_low_len (h : Word32) (t : List Byte) {l l' : Word}
    (hl : l.toNat % 2 ^ 32 = l'.toNat % 2 ^ 32) : final32 h t l = final32 h t l' := by
  have hw : l.setWidth 32 = l'.setWidth 32 :=
    BitVec.eq_of_toNat_eq (by rw [BitVec.toNat_setWidth, BitVec.toNat_setWidth, hl])
  rw [final32, final32, hw]

/-- Settles O39: a restart, an unbound core and a bound one, and the length that Final32 takes. -/
theorem lenCountsTheBytesWritten : Obligations.LenCountsTheBytesWritten := by
  refine ⟨fun s e es t hp h => ?_, fun h t l l' => final32_of_low_len h t⟩
  have hd := performed_of_step hp h
  rw [step_of_port hp] at h
  exact ⟨fun hr => len_of_restarts hr hd, fun hr hm => len_of_unbound (s := s.setPort es) hr hm hd,
    fun hr hm => len_of_bound (s := s.setPort es) hr hm h⟩

end Sys2Proof.Machine
end

section
/-! PROOF. The reset values (10_state.md R39) and the fields of STATUS (R25). -/

namespace Sys2Proof.Machine

/-- Settles O1: each value is a field of the reset state or a register assembled from its fields. -/
theorem resetStateHoldsTheResetValues : Obligations.ResetStateHoldsTheResetValues :=
  ⟨rfl, rfl, rfl, rfl, rfl, rfl, rfl, rfl, rfl, by decide⟩

theorem modeCode_le (m : Mode) : m.code.toNat ≤ 2 := by cases m <;> decide

theorem errCode_le (c : ErrCode) : c.code.toNat ≤ 4 := by cases c <;> decide

theorem shiftLeft_or_eq_add {a b k : Nat} (hb : b < 2 ^ k) : a <<< k ||| b = a * 2 ^ k + b := by
  rw [← Nat.shiftLeft_add_eq_or_of_lt hb, Nat.shiftLeft_eq]

/-- The three fields of STATUS do not overlap. -/
theorem statusWord_toNat (s : State) :
    (statusWord s).toNat = s.errcode.code.toNat * 2 ^ 16 + s.blen.toNat * 2 ^ 8 + s.mode.code.toNat := by
  have hm := modeCode_le s.mode
  have he := errCode_le s.errcode
  have hb := s.blen.isLt
  have hE : (s.errcode.code.setWidth 64 <<< 16).toNat = s.errcode.code.toNat <<< 16 := by
    simp only [BitVec.toNat_shiftLeft, BitVec.toNat_setWidth, Nat.shiftLeft_eq]
    omega
  have hB : (s.blen.setWidth 64 <<< 8).toNat = s.blen.toNat <<< 8 := by
    simp only [BitVec.toNat_shiftLeft, BitVec.toNat_setWidth, Nat.shiftLeft_eq]
    omega
  have hM : (s.mode.code.setWidth 64).toNat = s.mode.code.toNat := by
    rw [BitVec.toNat_setWidth]
    omega
  have hEB : s.errcode.code.toNat <<< 16 ||| s.blen.toNat <<< 8 =
      (s.errcode.code.toNat * 2 ^ 8 + s.blen.toNat) <<< 8 := by
    rw [shiftLeft_or_eq_add (by rw [Nat.shiftLeft_eq]; omega), Nat.shiftLeft_eq, Nat.shiftLeft_eq]
    omega
  rw [statusWord, BitVec.toNat_or, BitVec.toNat_or, hE, hB, hM, hEB, shiftLeft_or_eq_add (by omega)]
  omega

theorem statusWord_extractLsb'_toNat (s : State) (start len : Nat) :
    ((statusWord s).extractLsb' start len).toNat =
      (s.errcode.code.toNat * 2 ^ 16 + s.blen.toNat * 2 ^ 8 + s.mode.code.toNat) / 2 ^ start % 2 ^ len := by
  rw [BitVec.extractLsb'_toNat, statusWord_toNat, Nat.shiftRight_eq_div_pow]

/-- BLEN is below the block size of the mode, and 0 when unbound. -/
theorem blen_le_of_inv {s : State} (h : s.Inv) : (s.mode = .none → s.blen.toNat = 0) ∧
    (s.mode = .m32 → s.blen.toNat ≤ 3) ∧ (s.mode = .m128 → s.blen.toNat ≤ 15) := by
  obtain ⟨h0, h32, -⟩ := h
  refine ⟨fun hm => ?_, fun hm => ?_, fun _ => ?_⟩
  · obtain ⟨hb, -⟩ := h0 hm
    simp [hb]
  · obtain ⟨hb, -⟩ := h32 hm
    omega
  · have := s.blen.isLt
    omega

/-- Settles O16: the fields of STATUS are digits of one number, and the invariant bounds BLEN. -/
theorem statusWordFields : Obligations.StatusWordFields := by
  intro s
  have hm := modeCode_le s.mode
  have he := errCode_le s.errcode
  have hb := s.blen.isLt
  refine ⟨?_, ?_, ?_, ?_, ?_, ?_, hm, he, blen_le_of_inv⟩ <;> apply BitVec.eq_of_toNat_eq <;>
    simp only [regValue, statusWord_extractLsb'_toNat, BitVec.ofNat_eq_ofNat, BitVec.toNat_ofNat] <;> omega

end Sys2Proof.Machine
end

section
/-! PROOF. The host port (20_memory.md): the order of the pending events, legal and illegal accesses, the operand
bytes and the digest bytes. -/

namespace Sys2Proof.Machine

/-! ### Accesses, by whether they are legal -/

theorem perform_read_of_legal {off : Fin 64} (h8 : off.val % 8 = 0) (h : Nat) (s : State) :
    perform (.access ⟨h, off, 8, .read⟩) s = .next (s.returnRead h (regValue s (registerAt off))) :=
  if_pos ((legal_iff off 8).2 ⟨rfl, h8⟩)

theorem perform_write_of_legal {off : Fin 64} (h8 : off.val % 8 = 0) (h : Nat) (v : Word) (s : State) :
    perform (.access ⟨h, off, 8, .write v⟩) s = regWrite (registerAt off) v s :=
  if_pos ((legal_iff off 8).2 ⟨rfl, h8⟩)

theorem not_legal_of_defect {off : Fin 64} {size : Nat} (hd : size ≠ 8 ∨ off.val % 8 ≠ 0) :
    ¬ legal off size = true := by
  rw [legal_iff]
  omega

theorem perform_read_of_defect {off : Fin 64} {size : Nat} (hd : size ≠ 8 ∨ off.val % 8 ≠ 0) (h : Nat) (s : State) :
    perform (.access ⟨h, off, size, .read⟩) s = .next ((s.recordError .bus).returnRead h 0) :=
  if_neg (not_legal_of_defect hd)

theorem perform_write_of_defect {off : Fin 64} {size : Nat} (hd : size ≠ 8 ∨ off.val % 8 ≠ 0) (h : Nat) (v : Word)
    (s : State) : perform (.access ⟨h, off, size, .write v⟩) s = .next (s.recordError .bus) :=
  if_neg (not_legal_of_defect hd)

/-! ### Order -/

/-- A read, legal or not, returns one value to its own host. -/
theorem perform_reads_of_read {a : Access} {s t : State} (ha : a.transfer = .read)
    (h : perform (.access a) s = .next t) : ∃ v, t.reads = s.reads ++ [⟨a.host, v⟩] := by
  obtain ⟨host, off, size, tr⟩ := a
  subst ha
  by_cases hd : size ≠ 8 ∨ off.val % 8 ≠ 0
  · rw [perform_read_of_defect hd] at h
    cases h
    exact ⟨0, rfl⟩
  · obtain ⟨rfl, h8⟩ : size = 8 ∧ off.val % 8 = 0 := by omega
    rw [perform_read_of_legal h8] at h
    cases h
    exact ⟨_, rfl⟩

/-- Settles O10: the step performs the oldest event, which leaves the rest of the port alone and returns a value
exactly when it is a read. -/
theorem accessesArePerformedInOrder : Obligations.AccessesArePerformedInOrder := by
  intro s e es hp
  obtain ⟨t, ht⟩ := perform_next e (s.setPort es)
  refine ⟨t, (step_of_port hp).trans ht, perform_port ht, ?_⟩
  by_cases hr : ∃ a, e = .access a ∧ a.transfer = .read
  · obtain ⟨a, rfl, ha⟩ := hr
    obtain ⟨v, hv⟩ := perform_reads_of_read ha ht
    exact .inl ⟨a, v, rfl, ha, hv⟩
  · have hq : ∀ a, e = .access a → a.transfer ≠ .read := fun a he ha => hr ⟨a, he, ha⟩
    exact .inr ⟨hq, (perform_reads hq ht).trans (setPort_reads s es)⟩

/-! ### Reads and writes of the registers -/

/-- No register holds the pending events. -/
@[simp] theorem regValue_setPort (s : State) (es : List Event) (r : Reg) : regValue (s.setPort es) r = regValue s r := by
  cases r <;> rfl

/-- No register holds the values returned. -/
@[simp] theorem regValue_returnRead (s : State) (h : Nat) (v : Word) (r : Reg) :
    regValue (s.returnRead h v) r = regValue s r := by
  cases r <;> rfl

theorem step_of_legal_read {s : State} {h : Nat} {off : Fin 64} {es : List Event} (h8 : off.val % 8 = 0)
    (hp : s.port = .access ⟨h, off, 8, .read⟩ :: es) :
    step s = .next ((s.setPort es).returnRead h (regValue s (registerAt off))) := by
  rw [step_of_port hp, perform_read_of_legal h8, regValue_setPort]

theorem step_of_legal_write {s : State} {h : Nat} {off : Fin 64} {v : Word} {es : List Event} (h8 : off.val % 8 = 0)
    (hp : s.port = .access ⟨h, off, 8, .write v⟩ :: es) : step s = regWrite (registerAt off) v (s.setPort es) := by
  rw [step_of_port hp, perform_write_of_legal h8]

/-- A step and then a legal read: the read returns what the step left in the register. -/
theorem run_two_of_read {s t : State} {h : Nat} {off : Fin 64} {es : List Event} (hs : step s = .next t)
    (h8 : off.val % 8 = 0) (hp : t.port = .access ⟨h, off, 8, .read⟩ :: es) :
    Host.Core.run Sys2Proof.core 2 s = .next ((t.setPort es).returnRead h (regValue t (registerAt off))) := by
  rw [run_succ 1 hs, run_succ 0 (step_of_legal_read h8 hp), run_zero]

/-- Settles O12: the value of the register map at each offset, and the second read sees the registers the first one
left as they were. -/
theorem legalReadReturnsTheRegister : Obligations.LegalReadReturnsTheRegister := by
  intro s h off es h8 hp
  have hstep := step_of_legal_read h8 hp
  have hv := regValue_at off h8 s
  refine ⟨regValue s (registerAt off), hstep, ?id, ?cmd, ?status, ?arg0, ?arg1, ?dig0, ?dig1, ?len, ?again⟩
  case again =>
    rintro es' rfl
    rw [run_two_of_read hstep h8 rfl, regValue_returnRead, regValue_setPort]
    rfl
  case status =>
    intro ho
    simp [hv, ho, statusWord_toNat]
  all_goals
    intro ho
    simp [hv, ho, idValue]

/-- Settles O13: the defect makes the access illegal, whatever it moves. -/
theorem illegalAccessOnlyRecordsBusError : Obligations.IllegalAccessOnlyRecordsBusError := by
  intro s h off size tr es hp hd
  rw [step_of_port hp]
  cases tr with
  | read => exact perform_read_of_defect hd h _
  | write v => exact perform_write_of_defect hd h v _

/-- Settles O14: the offset is aligned and is none of CMD, ARG0 and ARG1. -/
theorem readOnlyWriteOnlyRecordsBusError : Obligations.ReadOnlyWriteOnlyRecordsBusError := by
  intro s h off v es ho hp
  have h8 : off.val % 8 = 0 := by omega
  rw [step_of_legal_write h8 hp, regWrite_at off h8, if_neg (by omega), if_neg (by omega), if_neg (by omega), raise]

theorem registerAt_offset (r : Reg) : registerAt r.offset = r := by cases r <;> rfl

/-- A write that a register keeps, and a read of that register by any host right after it. -/
theorem step_and_read_of_write {s t : State} {r : Reg} {h : Nat} {v : Word} {es : List Event}
    (hp : s.port = storeAccess h r v :: es) (hw : regWrite r v (s.setPort es) = .next t) (ht : t.port = es)
    (hv : regValue t r = v) :
    step s = .next t ∧ ∀ h' es', es = loadAccess h' r :: es' →
      Host.Core.run Sys2Proof.core 2 s = .next ((t.setPort es').returnRead h' v) := by
  have h8 : r.offset.val % 8 = 0 := by cases r <;> rfl
  have hs : step s = .next t := by rw [step_of_legal_write h8 hp, registerAt_offset, hw]
  refine ⟨hs, fun h' es' he => ?_⟩
  rw [run_two_of_read hs h8 (ht.trans he), registerAt_offset, hv]

/-- Settles O15: each of the two registers keeps what is written to it. -/
theorem argumentWriteStoresTheValue : Obligations.ArgumentWriteStoresTheValue := by
  constructor <;> intro s h off v es ho hp
  · obtain rfl : off = Reg.arg0.offset := Fin.ext ho
    exact step_and_read_of_write hp rfl rfl rfl
  · obtain rfl : off = Reg.arg1.offset := Fin.ext ho
    exact step_and_read_of_write hp rfl rfl rfl

/-! ### The bytes of the operands and of the digest -/

theorem chunk_getElem? (a0 a1 : Word) {n i : Nat} (h : i < n) :
    (chunk a0 a1 n)[i]? = some (chunkByte a0 a1 i) := by
  simp [chunk, h]

theorem chunkByte_low (a0 a1 : Word) {i : Nat} (h : i < 8) :
    chunkByte a0 a1 i = BitVec.ofNat 8 (a0.toNat / 2 ^ (8 * i)) := by
  rw [chunkByte, if_pos h, byte_of_word, Nat.pow_mul]

theorem chunkByte_high (a0 a1 : Word) {i : Nat} (h : 8 ≤ i) :
    chunkByte a0 a1 i = BitVec.ofNat 8 (a1.toNat / 2 ^ (8 * (i - 8))) := by
  rw [chunkByte, if_neg (by omega), byte_of_word, Nat.pow_mul]

/-- The eight bytes of a u64, least significant first, load as the u64. -/
theorem le64_word_bytes (v : Word) :
    le64 ((List.range 8).map (fun i => BitVec.ofNat 8 (v.toNat / 256 ^ i))) = v := by
  rw [le64, leNat_bytes, Nat.mod_eq_of_lt (show v.toNat < 256 ^ 8 from v.isLt), BitVec.ofNat_toNat, BitVec.setWidth_eq]

/-- A full chunk is the eight bytes of ARG0 and then those of ARG1 (decision D4). -/
theorem le64_full_chunk (a0 a1 : Word) :
    le64 ((chunk a0 a1 16).take 8) = a0 ∧ le64 ((chunk a0 a1 16).drop 8) = a1 := by
  have hl := chunk_length a0 a1 8
  rw [show 16 = 8 + 8 from rfl, chunk_add_eight, List.take_left' hl, List.drop_left' hl,
    chunk_le_eight a0 a1 8 (Nat.le_refl 8)]
  exact ⟨le64_word_bytes a0, le64_word_bytes a1⟩

/-- Settles O32: each byte by its lane, and the eight bytes of a lane make its register. -/
theorem chunkBytesFollowTheLanes : Obligations.ChunkBytesFollowTheLanes := by
  intro a0 a1
  refine ⟨fun n i hn hi => ?_, fun n i hn hi _ => ?_, chunk_length a0 a1, fun n b1 hn => ?_, le64_full_chunk a0 a1⟩
  · rw [chunk_getElem? a0 a1 hn, chunkByte_low a0 a1 hi]
  · rw [chunk_getElem? a0 a1 hn, chunkByte_high a0 a1 hi]
  · rw [chunk_le_eight a0 b1 n hn, chunk_le_eight a0 a1 n hn]

/-- Byte `i` of a u32, as bits and as a number. -/
theorem byte_of_word32 (v : Word32) (i : Nat) : v.extractLsb' (8 * i) 8 = BitVec.ofNat 8 (v.toNat / 256 ^ i) := by
  apply BitVec.eq_of_toNat_eq
  rw [BitVec.extractLsb'_toNat, BitVec.toNat_ofNat, Nat.shiftRight_eq_div_pow, Nat.pow_mul]

/-- Byte `i` of a big-endian u64 is byte `7 - i` counted from the least significant. -/
theorem beBytes_eight_getElem? (v : Word) {i : Nat} (h : i < 8) :
    (beBytes 8 v.toNat)[i]? = some (v.extractLsb' (8 * (7 - i)) 8) := by
  rw [beBytes_getElem? 8 _ i h, byte_of_word]

/-- The same of the low u32 of a u64. -/
theorem beBytes_four_getElem? (v : Word) {i : Nat} (h : i < 4) :
    (beBytes 4 (v.setWidth 32).toNat)[i]? = some (v.extractLsb' (8 * (3 - i)) 8) := by
  rw [beBytes_getElem? 4 _ i h, ← byte_of_word32, BitVec.extractLsb'_setWidth_of_le (by omega)]

/-- Settles O56: each digest word is serialized on its own, and DIG1 follows the eight bytes of DIG0. -/
theorem digestBytesAreBigEndian : Obligations.DigestBytesAreBigEndian := by
  intro s
  refine ⟨beBytes_length 4 _, beBytes_length 8 _, rfl, fun i hi => beBytes_four_getElem? s.dig0 hi,
    fun i hi => beBytes_eight_getElem? s.dig0 hi, fun i hi => ?_⟩
  have hl : (beBytes 8 s.dig0.toNat).length = 8 := beBytes_length 8 _
  rw [bytes128, List.getElem?_append_right (by omega), hl, Nat.add_sub_cancel_left]
  exact beBytes_eight_getElem? s.dig1 hi

end Sys2Proof.Machine
end

section
/-! PROOF. The command word (30_encoding.md R81 to R93): encoding and decoding are inverse to each other on the
well-formed commands, and what a step makes of a write to CMD. -/

namespace Sys2Proof.Machine

/-! ### Words and commands -/

/-- The fields of every command's word. -/
theorem encodedFields (i : Instr) : Laws.EncodedFields.Statement i := by
  cases i with
  | nop => exact Laws.EncodedFields.nop
  | init32 => exact Laws.EncodedFields.init32
  | init128 => exact Laws.EncodedFields.init128
  | init64 => exact Laws.EncodedFields.init64
  | write n => exact Laws.EncodedFields.write n
  | sum32 => exact Laws.EncodedFields.sum32
  | sum128 => exact Laws.EncodedFields.sum128
  | clrerr => exact Laws.EncodedFields.clrerr

/-- A word that decodes is the encoding of its command: OP, N and RSV are all there is to a word. -/
theorem encode_of_decode {w : Word} {i : Instr} (h : decode w = .ok i) : encode i = w := by
  obtain ⟨hres, -, hop, hcount⟩ := decode_ok h
  have hrsv : wordRsv w = 0 := by
    by_contra hne
    exact hres (.inr (.inr (.inr hne)))
  apply BitVec.eq_of_toNat_eq
  rw [encode_toNat, word_eq_fields w, hop, hcount, hrsv, Nat.mul_zero, Nat.add_zero]

/-- The encoding of a well-formed command decodes to it: the word is not reserved, and the command it decodes to has
the same OP and N. -/
theorem decode_encode {i : Instr} (hw : i.wf = true) : decode (encode i) = .ok i := by
  obtain ⟨hop, hcount, -, hres⟩ := encodedFields i
  obtain ⟨j, hj, -, hjop, hjcount⟩ := decode_of_not_reserved (encode i) (hres hw)
  have hji : j = i :=
    Instr.eq_of_fields (BitVec.eq_of_toNat_eq (hjop.trans hop)) (BitVec.eq_of_toNat_eq (hjcount.trans hcount))
  rw [hj, hji]

/-- Settles O5: decoding loses nothing of a word, and encoding loses nothing of a well-formed command. -/
theorem decodeAndEncodeAgree : Obligations.DecodeAndEncodeAgree := by
  intro w i
  constructor
  · intro h
    obtain ⟨-, hw, -⟩ := decode_ok h
    exact ⟨hw, encode_of_decode h⟩
  · rintro ⟨hw, rfl⟩
    exact decode_encode hw

/-- Settles O3: the word of a command is its OP and 256 times its count. -/
theorem encodingOfEachCommand : Obligations.EncodingOfEachCommand :=
  ⟨rfl, rfl, rfl, rfl, fun n => encode_toNat (.write n), rfl, rfl, rfl⟩

/-- Settles O4: the legal words are encodings, and the count of 0x1104 is 17. -/
theorem wordsOfTheSpecDecode : Obligations.WordsOfTheSpecDecode :=
  ⟨decode_encode (i := .write 0) rfl, decode_encode (i := .write 1) rfl, decode_encode (i := .write 5) rfl,
    decode_encode (i := .write 8) rfl, decode_encode (i := .write 12) rfl, decode_encode (i := .write 16) rfl,
    decode_encode (i := .init128) rfl, decode_encode (i := .sum32) rfl, rfl⟩

/-! ### The rows of the opcode table -/

/-- The mask of WRITE's row keeps OP and RSV. -/
theorem fields_of_and_writeMask {w : Word} (h : w &&& 0xFFFFFFFFFFFFE0FF = 0x4) : wordOp w = 4 ∧ wordRsv w = 0 := by
  have hop : opField w = opField (w &&& 0xFFFFFFFFFFFFE0FF) := by
    rw [opField, opField, BitVec.extractLsb'_and]
    exact (BitVec.and_allOnes).symm
  have hrsv : rsvField w = rsvField (w &&& 0xFFFFFFFFFFFFE0FF) := by
    rw [rsvField, rsvField, BitVec.extractLsb'_and]
    exact (BitVec.and_allOnes).symm
  rw [← opField_toNat, ← rsvField_toNat, hop, hrsv, h]
  exact ⟨rfl, rfl⟩

/-- WRITE's row: the words that match it under its mask and have `n` in N are the word of `write n`. -/
theorem encode_write_eq_iff (w : Word) (n : BitVec 5) :
    encode (.write n) = w ↔ w &&& 0xFFFFFFFFFFFFE0FF = 0x4 ∧ w.extractLsb' 8 5 = n := by
  constructor
  · rintro rfl
    revert n
    decide
  · rintro ⟨hmask, hn⟩
    obtain ⟨hop, hrsv⟩ := fields_of_and_writeMask hmask
    have hcount : wordCount w = n.toNat := by rw [← countField_toNat, countField, hn]
    apply BitVec.eq_of_toNat_eq
    rw [encode_toNat, word_eq_fields w, hop, hrsv, hcount]
    rfl

/-- A row with no operand: its match value is the word of its command. -/
theorem decode_eq_iff_of_encode {w v : Word} {i : Instr} (hw : i.wf = true) (hv : encode i = v) :
    decode w = .ok i ↔ w = v := by
  rw [decodeAndEncodeAgree w i, hv]
  exact ⟨fun ⟨_, h⟩ => h.symm, fun h => ⟨hw, h.symm⟩⟩

/-- Settles O7: a row is the word of its command, and WRITE's count is bounded by well-formedness. -/
theorem opcodeTableRowsDecode : Obligations.OpcodeTableRowsDecode := by
  intro w
  refine ⟨decode_eq_iff_of_encode rfl rfl, decode_eq_iff_of_encode rfl rfl, decode_eq_iff_of_encode rfl rfl,
    decode_eq_iff_of_encode rfl rfl, fun n => ?_, decode_eq_iff_of_encode rfl rfl, decode_eq_iff_of_encode rfl rfl,
    decode_eq_iff_of_encode rfl rfl⟩
  have hwf : (Instr.write n).wf = true ↔ n.toNat ≤ 16 := decide_eq_true_iff
  rw [decodeAndEncodeAgree, hwf, encode_write_eq_iff, and_comm, and_assoc]

/-! ### Command words at the port -/

theorem offset_mod_eight (r : Reg) : r.offset.val % 8 = 0 := by cases r <;> rfl

theorem step_of_store {s : State} {r : Reg} {h : Nat} {v : Word} {es : List Event}
    (hp : s.port = storeAccess h r v :: es) : step s = regWrite r v (s.setPort es) := by
  rw [step_of_legal_write (offset_mod_eight r) hp, registerAt_offset]

theorem step_of_load {s : State} {r : Reg} {h : Nat} {es : List Event} (hp : s.port = loadAccess h r :: es) :
    step s = .next ((s.setPort es).returnRead h (regValue s r)) := by
  rw [step_of_legal_read (offset_mod_eight r) hp, registerAt_offset]

theorem execute_of_decode {w : Word} {i : Instr} (h : decode w = .ok i) (s : State) : execute w s = exec i s := by
  rw [execute, h]

theorem execute_of_reserved {w : Word} (h : wordReserved w) (s : State) :
    execute w s = .next (s.recordError .illegal) := by
  obtain ⟨r, hr⟩ := decode_of_reserved w h
  rw [execute, hr, raise]

/-- Settles O6: a reserved word decodes to no command, and every other word does. -/
theorem reservedEncodingsRecordIllegal : Obligations.ReservedEncodingsRecordIllegal := by
  refine ⟨fun s h w es hp hw => ?_, fun w hw => ?_⟩
  · exact (step_of_store hp).trans (execute_of_reserved hw _)
  · obtain ⟨i, hi, -⟩ := decode_of_not_reserved w hw
    exact ⟨i, hi⟩

/-- Settles O8: the step stores to CMD, which executes the word. -/
theorem stepRunsTheDecodedCommand : Obligations.StepRunsTheDecodedCommand := by
  intro s h w i es hp hd
  obtain ⟨-, hw, -⟩ := decode_ok hd
  exact ⟨hw, (step_of_store hp).trans (execute_of_decode hd _)⟩

end Sys2Proof.Machine
end

section
/-! PROOF. The pseudo-instructions of 30_encoding.md R94 as runs: the accesses of a seed, those of a message and
those of a SUM with its reads, one after the other. -/

namespace Sys2Proof.Machine

/-! ### Runs of lists of accesses -/

/-- A run over two lists of events is a run over the first and then one over the second. -/
theorem run_append {s t : State} {r : Result} {es es' : List Event}
    (h : Host.Core.run Sys2Proof.core es.length s = .next t) (h' : Host.Core.run Sys2Proof.core es'.length t = r) :
    Host.Core.run Sys2Proof.core (es ++ es').length s = r := by
  rw [List.length_append, run_add _ _ h, h']

/-- The argument registers keep what is stored. -/
theorem step_of_store_arg0 {s : State} {h : Nat} {v : Word} {es : List Event}
    (hp : s.port = storeAccess h .arg0 v :: es) : step s = .next ((s.setPort es).setArg0 v) := step_of_store hp

theorem step_of_store_arg1 {s : State} {h : Nat} {v : Word} {es : List Event}
    (hp : s.port = storeAccess h .arg1 v :: es) : step s = .next ((s.setPort es).setArg1 v) := step_of_store hp

/-- A command that its mode allows, at the head of the port. -/
theorem step_of_issue {s : State} {i : Instr} {h : Nat} {es : List Event} (hw : i.wf = true)
    (hm : modeError i s.mode = none) (hp : s.port = issue h i :: es) :
    step s = .next (effect i (s.setPort es)) := by
  rw [step_of_store hp]
  exact (execute_of_decode (decode_encode hw) _).trans (exec_of_no_modeError hw hm)

/-! ### The accesses of a seed -/

/-- A u32 zero-extended to a u64 is its own low half. -/
theorem setWidth_32_setWidth_64 (x : Word32) : (x.setWidth 64).setWidth 32 = x :=
  BitVec.setWidth_setWidth_of_le x (by omega)

/-- `seed32` starts an M32 stream: INIT32 takes the low half of the ARG0 just written. -/
theorem run_seed32 {s : State} {h : Nat} {seed : Word32} {rest : List Event}
    (hp : s.port = seed32Accesses h seed ++ rest) :
    ∃ u : State, Host.Core.run Sys2Proof.core (seed32Accesses h seed).length s =
        .next (u.startStream .m32 (seed.setWidth 64) 0) ∧ u.port = rest ∧ u.reads = s.reads := by
  have h1 := step_of_store_arg0 hp
  have h2 := step_of_issue (i := .init32) rfl rfl (setArg0_port (s.setPort (issue h .init32 :: rest)) (seed.setWidth 64))
  rw [effect, seed32, setPort_arg0, setArg0_arg0, setWidth_32_setWidth_64] at h2
  exact ⟨_, (run_succ 1 h1).trans (run_succ 0 h2), rfl, rfl⟩

/-- `seed64` starts an M128 stream with the one seed in both halves. -/
theorem run_seed64 {s : State} {h : Nat} {seed : Word} {rest : List Event}
    (hp : s.port = seed64Accesses h seed ++ rest) :
    ∃ u : State, Host.Core.run Sys2Proof.core (seed64Accesses h seed).length s =
        .next (u.startStream .m128 seed seed) ∧ u.port = rest ∧ u.reads = s.reads := by
  have h1 := step_of_store_arg0 hp
  have h2 := step_of_issue (i := .init64) rfl rfl (setArg0_port (s.setPort (issue h .init64 :: rest)) seed)
  exact ⟨_, (run_succ 1 h1).trans (run_succ 0 h2), rfl, rfl⟩

/-- Both argument writes: the stream and the values returned stay. -/
theorem run_both_operands {s : State} {h : Nat} {a0 a1 : Word} {rest : List Event}
    (hp : s.port = [storeAccess h .arg0 a0, storeAccess h .arg1 a1] ++ rest) :
    ∃ u : State, Host.Core.run Sys2Proof.core 2 s = .next u ∧ u.port = rest ∧ u.reads = s.reads ∧ sameLive s u ∧
      u.arg0 = a0 ∧ u.arg1 = a1 := by
  have h1 := step_of_store_arg0 hp
  have h2 := step_of_store_arg1 (setArg0_port (s.setPort (storeAccess h .arg1 a1 :: rest)) a0)
  exact ⟨_, (run_succ 1 h1).trans (run_succ 0 h2), rfl, rfl, sameLive.refl s, rfl, rfl⟩

/-- `seed128` starts an M128 stream with its two seeds. -/
theorem run_seed128 {s : State} {h : Nat} {s1 s2 : Word} {rest : List Event}
    (hp : s.port = seed128Accesses h s1 s2 ++ rest) :
    ∃ u : State, Host.Core.run Sys2Proof.core (seed128Accesses h s1 s2).length s =
        .next (u.startStream .m128 s1 s2) ∧ u.port = rest ∧ u.reads = s.reads := by
  obtain ⟨u, hu, hup, hur, -, rfl, rfl⟩ := run_both_operands (rest := issue h .init128 :: rest) hp
  have h3 := step_of_issue rfl rfl hup
  exact ⟨u.setPort rest, (run_add 2 1 hu).trans (run_succ 0 h3), rfl, hur⟩

/-! ### The accesses of a message -/

theorem mode_of_sameLive {s t : State} (h : sameLive s t) : t.mode = s.mode := by
  obtain ⟨⟨hmode, -⟩, -⟩ := h
  exact hmode

/-- The argument writes of a `data`, the second of them only under a condition. -/
theorem run_operands {c : Prop} [Decidable c] {s : State} {h : Nat} {a0 a1 : Word} {rest : List Event}
    (hp : s.port = (storeAccess h .arg0 a0 :: if c then [storeAccess h .arg1 a1] else []) ++ rest) :
    ∃ u : State, Host.Core.run Sys2Proof.core
        (storeAccess h .arg0 a0 :: if c then [storeAccess h .arg1 a1] else []).length s = .next u ∧
      u.port = rest ∧ u.reads = s.reads ∧ sameLive s u ∧ u.arg0 = a0 ∧ u.arg1 = if c then a1 else s.arg1 := by
  by_cases hc : c
  · simp only [if_pos hc] at hp ⊢
    exact run_both_operands hp
  · simp only [if_neg hc] at hp ⊢
    exact ⟨_, run_succ 0 (step_of_store_arg0 hp), rfl, rfl, sameLive.refl s, rfl, rfl⟩

/-- One `data`: whatever ARG0 and ARG1 held, its bytes are absorbed. -/
theorem run_data {s : State} {h : Nat} {bs : List Byte} {rest : List Event} (hl : bs.length ≤ 16)
    (hm : s.mode ≠ .none) (hp : s.port = dataAccesses h bs ++ rest) :
    ∃ t : State, Host.Core.run Sys2Proof.core (dataAccesses h bs).length s = .next t ∧ t.port = rest ∧
      t.reads = s.reads ∧ sameLive (absorbAll s bs) t := by
  rw [dataAccesses, List.append_assoc] at hp
  obtain ⟨u, hu, hup, hur, hul, hu0, hu1⟩ := run_operands hp
  have hn : (BitVec.ofNat 5 bs.length).toNat = bs.length := by
    rw [BitVec.toNat_ofNat]
    omega
  have h1 := step_of_issue (by simpa [Instr.wf, hn] using hl)
    ((modeError_write_eq_none (BitVec.ofNat 5 bs.length) u.mode).2 (mode_of_sameLive hul ▸ hm)) hup
  rw [effect, setPort_arg0, setPort_arg1, hu0, hu1, hn, chunk_of_bytes bs s.arg1 hl] at h1
  obtain ⟨-, -, -, -, -, -, hport, hreads, -⟩ := absorbAll_frame bs (u.setPort rest)
  exact ⟨_, run_append hu (run_succ 0 h1), hport, hreads.trans hur, absorbAll_sameLive bs hul⟩

/-- One `data` after another. -/
theorem run_pieces {h : Nat} {ps : List (List Byte)} (hl : ∀ p ∈ ps, p.length ≤ 16) {s : State} {rest : List Event}
    (hm : s.mode ≠ .none) (hp : s.port = ps.flatMap (dataAccesses h) ++ rest) :
    ∃ t : State, Host.Core.run Sys2Proof.core (ps.flatMap (dataAccesses h)).length s = .next t ∧ t.port = rest ∧
      t.reads = s.reads ∧ sameLive (absorbAll s ps.flatten) t := by
  induction ps generalizing s with
  | nil => exact ⟨s, rfl, hp, rfl, sameLive.refl s⟩
  | cons p ps ih =>
    rw [List.flatMap_cons, List.append_assoc] at hp
    obtain ⟨u, hu, hup, hur, hul⟩ := run_data (hl p List.mem_cons_self) hm hp
    have hum : u.mode ≠ .none := by rwa [mode_of_sameLive hul, absorbAll_mode]
    obtain ⟨t, ht, htp, htr, htl⟩ := ih (fun q hq => hl q (List.mem_cons_of_mem p hq)) hum hup
    rw [List.flatten_cons, absorbAll_append]
    exact ⟨t, run_append hu ht, htp, htr.trans hur, (absorbAll_sameLive ps.flatten hul).trans htl⟩

/-- No piece of a message is longer than a WRITE can take. -/
theorem length_of_mem_pieces {fuel : Nat} {m p : List Byte} (h : p ∈ pieces fuel m) : p.length ≤ 16 := by
  induction fuel generalizing m with
  | zero => simp [pieces] at h
  | succ fuel ih =>
    rw [pieces] at h
    split at h
    · simp at h
    · rcases List.mem_cons.1 h with rfl | h
      · exact List.length_take_le 16 m
      · exact ih h

/-- The pieces of a message, put together again, are the message. -/
theorem flatten_pieces {fuel : Nat} {m : List Byte} (h : m.length ≤ fuel) : (pieces fuel m).flatten = m := by
  induction fuel generalizing m with
  | zero => exact (List.length_eq_zero_iff.1 (Nat.le_zero.1 h)).symm
  | succ fuel ih =>
    rw [pieces]
    split
    next hm => exact hm.symm
    next hm => rw [List.flatten_cons, ih (by rw [List.length_drop]; omega), List.take_append_drop]

/-- The accesses of a message, in a bound core, absorb it. -/
theorem run_message {s : State} {h : Nat} {m : List Byte} {rest : List Event} (hm : s.mode ≠ .none)
    (hp : s.port = messageAccesses h m ++ rest) :
    ∃ t : State, Host.Core.run Sys2Proof.core (messageAccesses h m).length s = .next t ∧ t.port = rest ∧
      t.reads = s.reads ∧ sameLive (absorbAll s m) t := by
  obtain ⟨t, ht⟩ := run_pieces (fun _ => length_of_mem_pieces) hm hp
  rw [flatten_pieces le_rfl] at ht
  exact ⟨t, ht⟩

/-! ### A stream from its INIT to its SUM -/

/-- Accesses that start a stream, and then those of a message. -/
theorem run_start_message {s u : State} {mode : Mode} {x1 x2 : Word} {h : Nat} {m : List Byte} {es rest : List Event}
    (hu : Host.Core.run Sys2Proof.core es.length s = .next (u.startStream mode x1 x2)) (hm : mode ≠ .none)
    (hup : u.port = messageAccesses h m ++ rest) (hur : u.reads = s.reads) :
    ∃ t : State, Host.Core.run Sys2Proof.core (es ++ messageAccesses h m).length s = .next t ∧ t.port = rest ∧
      t.reads = s.reads ∧ (absorbAll (u.startStream mode x1 x2) m).sameStream t := by
  obtain ⟨t, ht, htp, htr, htl, -⟩ := run_message (s := u.startStream mode x1 x2) hm hup
  exact ⟨t, run_append hu ht, htp, htr.trans hur, htl⟩

/-- The pending bytes belong to the stream. -/
theorem pend_of_sameStream {s t : State} (h : s.sameStream t) : t.pend = s.pend := by
  obtain ⟨-, -, -, hbuf, hblen, -⟩ := h
  rw [State.pend, State.pend, hbuf, hblen]

/-- What SUM32 computes in a stream that was started and has absorbed `m`. -/
theorem final32_of_started {u t : State} {seed : Word32} {m : List Byte}
    (h : (absorbAll (u.startStream .m32 (seed.setWidth 64) 0) m).sameStream t) :
    final32 (t.h1.setWidth 32) t.pend t.len = digest32 seed m := by
  have hpend := pend_of_sameStream h
  obtain ⟨-, hh1, -, -, -, hlen⟩ := h
  obtain ⟨k1, -, k3, -⟩ := absorbAll_m32 m (startStream_mode u .m32 (seed.setWidth 64) 0) (by simp)
    (by rw [startStream_h1, setWidth_32_setWidth_64])
  rw [startStream_h1, setWidth_32_setWidth_64, startStream_pend, List.nil_append] at k1
  rw [startStream_pend, List.nil_append, startStream_blen, show (0 : BitVec 4).toNat = 0 from rfl, Nat.zero_add] at k3
  rw [hh1, hpend, hlen, k1, k3, absorbAll_len, startStream_len, zero_add,
    setWidth_32_setWidth_64, digest32]

/-- What SUM128 computes in a stream that was started and has absorbed `m`. -/
theorem final128_of_started {u t : State} {s1 s2 : Word} {m : List Byte}
    (h : (absorbAll (u.startStream .m128 s1 s2) m).sameStream t) :
    final128 t.h1 t.h2 t.pend t.len = digest128 s1 s2 m := by
  have hpend := pend_of_sameStream h
  obtain ⟨-, hh1, hh2, -, -, hlen⟩ := h
  obtain ⟨k1, k3, -⟩ := absorbAll_m128 m (startStream_mode u .m128 s1 s2)
  rw [startStream_h1, startStream_h2, startStream_pend, List.nil_append] at k1
  rw [startStream_pend, List.nil_append, startStream_blen, show (0 : BitVec 4).toNat = 0 from rfl, Nat.zero_add] at k3
  rw [hh1, hh2, hpend, hlen, k3, absorbAll_len, startStream_len, zero_add, digest128, ← k1]

/-! ### SUM and its reads -/

/-- SUM32 and the read of its digest. -/
theorem run_sum32 {u t : State} {h : Nat} {seed : Word32} {m : List Byte} {rest : List Event}
    (hl : (absorbAll (u.startStream .m32 (seed.setWidth 64) 0) m).sameStream t)
    (hp : t.port = [issue h .sum32, loadAccess h .dig0] ++ rest) :
    ∃ v : State, Host.Core.run Sys2Proof.core 2 t = .next v ∧ v.port = rest ∧
      v.reads = t.reads ++ [⟨h, (digest32 seed m).setWidth 64⟩] := by
  have hm : t.mode = .m32 := by rw [hl.1, absorbAll_mode, startStream_mode]
  have h1 := step_of_issue rfl ((modeError_sum32_eq_none _).2 hm) hp
  rw [effect, setPort_h1, setPort_pend, setPort_len, final32_of_started hl] at h1
  exact ⟨_, run_two_of_read h1 (offset_mod_eight .dig0) rfl, rfl, rfl⟩

/-- SUM128, which puts the digest pair in DIG0 and DIG1. -/
theorem step_of_sum128 {u t : State} {h : Nat} {s1 s2 : Word} {m : List Byte} {rest : List Event}
    (hl : (absorbAll (u.startStream .m128 s1 s2) m).sameStream t) (hp : t.port = issue h .sum128 :: rest) :
    step t = .next ((t.setPort rest).setDigest (digest128 s1 s2 m).1 (digest128 s1 s2 m).2) := by
  have hm : t.mode = .m128 := by rw [hl.1, absorbAll_mode, startStream_mode]
  rw [step_of_issue rfl ((modeError_sum128_eq_none _).2 hm) hp, effect, setPort_h1, setPort_h2, setPort_pend,
    setPort_len, final128_of_started hl]

/-- SUM128 and the read of the first digest word. -/
theorem run_sum64 {u t : State} {h : Nat} {seed : Word} {m : List Byte} {rest : List Event}
    (hl : (absorbAll (u.startStream .m128 seed seed) m).sameStream t) (hp : t.port = sum64Accesses h ++ rest) :
    ∃ v : State, Host.Core.run Sys2Proof.core (sum64Accesses h).length t = .next v ∧ v.port = rest ∧
      v.reads = t.reads ++ [⟨h, digest64 seed m⟩] :=
  ⟨_, run_two_of_read (step_of_sum128 hl hp) (offset_mod_eight .dig0) rfl, rfl, rfl⟩

/-- SUM128 and the reads of both digest words: reading DIG0 leaves DIG1. -/
theorem run_sum128 {u t : State} {h : Nat} {s1 s2 : Word} {m : List Byte} {rest : List Event}
    (hl : (absorbAll (u.startStream .m128 s1 s2) m).sameStream t)
    (hp : t.port = [issue h .sum128, loadAccess h .dig0, loadAccess h .dig1] ++ rest) :
    ∃ v : State, Host.Core.run Sys2Proof.core 3 t = .next v ∧ v.port = rest ∧
      v.reads = t.reads ++ [⟨h, (digest128 s1 s2 m).1⟩, ⟨h, (digest128 s1 s2 m).2⟩] := by
  have h2 := run_two_of_read (step_of_sum128 hl hp) (offset_mod_eight .dig0) rfl
  exact ⟨_, (run_add 2 1 h2).trans (run_succ 0 (step_of_load rfl)), rfl, List.append_assoc ..⟩

/-! ### The digests returned -/

/-- Settles O46: the seed starts a stream, the message is absorbed, and the SUM's digest is read. -/
theorem hash32ReturnsTheDigest : Obligations.Hash32ReturnsTheDigest := by
  intro s h seed m rest hp
  rw [hash32Accesses, List.append_assoc, List.append_assoc] at hp
  obtain ⟨u, hu, hup, hur⟩ := run_seed32 hp
  obtain ⟨t, ht, htp, htr, htl⟩ := run_start_message hu (by decide) hup hur
  obtain ⟨v, hv, hvp, hvr⟩ := run_sum32 htl htp
  exact ⟨v, run_append ht hv, hvp, by rw [hvr, htr]⟩

/-- Settles O47: both start a stream of the 128-bit engine, hash64 with one seed twice, and read the digest. -/
theorem hash64AndHash128ReturnTheDigest : Obligations.Hash64AndHash128ReturnTheDigest := by
  constructor
  · intro s h seed m rest hp
    rw [hash64Accesses, List.append_assoc, List.append_assoc] at hp
    obtain ⟨u, hu, hup, hur⟩ := run_seed64 hp
    obtain ⟨t, ht, htp, htr, htl⟩ := run_start_message hu (by decide) hup hur
    obtain ⟨v, hv, hvp, hvr⟩ := run_sum64 htl htp
    exact ⟨v, run_append ht hv, hvp, by rw [hvr, htr]⟩
  · intro s h s1 s2 m rest hp
    rw [hash128Accesses, List.append_assoc, List.append_assoc] at hp
    obtain ⟨u, hu, hup, hur⟩ := run_seed128 hp
    obtain ⟨t, ht, htp, htr, htl⟩ := run_start_message hu (by decide) hup hur
    obtain ⟨v, hv, hvp, hvr⟩ := run_sum128 htl htp
    exact ⟨v, run_append ht hv, hvp, by rw [hvr, htr]⟩

end Sys2Proof.Machine
end

section
/-! SUPPORT. The invertible operators of the engines at any width (an odd multiplier, a rotate, an XOR with the own
right shift), little-endian loads of 32 bits, and the malformed words of the commands without a count. -/

namespace Sys2Proof.Machine

/-! ### Invertible operators -/

/-- An odd number has no factor in common with 2^w, so it cancels modulo 2^w. -/
theorem mul_injective_of_odd {w : Nat} {c : BitVec w} (hc : Odd c.toNat) :
    Function.Injective (fun x : BitVec w => c * x) := by
  intro x y h
  have hgcd : (2 ^ w).gcd c.toNat = 1 := hc.coprime_two_left.pow_left w
  have hmul : c.toNat * x.toNat ≡ c.toNat * y.toNat [MOD 2 ^ w] := by
    simpa only [Nat.ModEq, BitVec.toNat_mul] using congrArg BitVec.toNat h
  exact BitVec.eq_of_toNat_eq (Nat.ModEq.eq_of_lt_of_lt (hmul.cancel_left_of_coprime hgcd) x.isLt y.isLt)

theorem rotateRight_rotateLeft {w : Nat} (x : BitVec w) (r : Nat) : (x.rotateLeft r).rotateRight r = x := by
  ext i hi
  have hr : r % w < w := Nat.mod_lt r (by omega)
  rw [BitVec.getElem_rotateRight]
  split
  · rw [BitVec.getElem_rotateLeft, dif_neg (by omega)]
    simp only [Nat.add_sub_cancel_left]
  · rw [BitVec.getElem_rotateLeft, dif_pos (by omega)]
    congr 1
    omega

theorem rotateLeft_injective {w : Nat} (r : Nat) : Function.Injective (fun x : BitVec w => x.rotateLeft r) :=
  Function.LeftInverse.injective (g := fun x => x.rotateRight r) fun x => rotateRight_rotateLeft x r

/-- A word that its own right shift leaves as it is, is 0: a shift halves. -/
theorem eq_zero_of_eq_ushiftRight {w n : Nat} (hn : 0 < n) {x : BitVec w} (h : x = x >>> n) : x = 0 := by
  have hx : x.toNat = x.toNat / 2 ^ n := by
    simpa only [BitVec.toNat_ushiftRight, Nat.shiftRight_eq_div_pow] using congrArg BitVec.toNat h
  by_contra hne
  have hpos : 0 < x.toNat := Nat.pos_of_ne_zero fun h0 => hne (BitVec.eq_of_toNat_eq h0)
  have := Nat.div_lt_self hpos (Nat.one_lt_two_pow hn.ne')
  omega

/-- The XOR of two words with one image is left as it is by its own right shift. -/
theorem xor_ushiftRight_injective {w n : Nat} (hn : 0 < n) :
    Function.Injective (fun x : BitVec w => x ^^^ (x >>> n)) := by
  intro x y h
  have hxy : (x ^^^ y) ^^^ ((x ^^^ y) >>> n) = 0 := by
    calc (x ^^^ y) ^^^ ((x ^^^ y) >>> n) = (x ^^^ (x >>> n)) ^^^ (y ^^^ (y >>> n)) := by
          rw [BitVec.ushiftRight_xor_distrib]
          ac_rfl
      _ = 0 := BitVec.xor_eq_zero_iff.2 h
  exact BitVec.xor_eq_zero_iff.1 (eq_zero_of_eq_ushiftRight hn (BitVec.xor_eq_zero_iff.1 hxy))

/-- The rotate of 00_scope.md R10 is the library's. -/
theorem rotl32_eq_rotateLeft (x : Word32) {r : Nat} (hr : r < 32) : rotl32 x r = x.rotateLeft r :=
  (BitVec.rotateLeft_eq_rotateLeftAux_of_lt hr).symm

/-! ### Little-endian loads -/

/-- The byte in front of a load is its least significant one. -/
theorem le32_cons (b : Byte) (bs : List Byte) : le32 (b :: bs) = b.setWidth 32 ||| le32 bs <<< 8 := by
  have hshift : (le32 bs <<< 8).toNat = (leNat bs % 2 ^ 24) <<< 8 := by
    simp only [le32, BitVec.toNat_shiftLeft, BitVec.toNat_ofNat, Nat.shiftLeft_eq]
    omega
  apply BitVec.eq_of_toNat_eq
  rw [BitVec.toNat_or, hshift, BitVec.toNat_setWidth_of_le (by decide), Nat.or_comm, shiftLeft_or_eq_add b.isLt, le32,
    BitVec.toNat_ofNat, leNat]
  have := b.isLt
  omega

theorem le32_one (b0 : Byte) : le32 [b0] = b0.setWidth 32 := by
  rw [le32_cons]
  exact BitVec.or_zero

theorem le32_two (b0 b1 : Byte) : le32 [b0, b1] = b0.setWidth 32 ||| (b1.setWidth 32 <<< 8) := by
  rw [le32_cons, le32_one]

theorem le32_three (b0 b1 b2 : Byte) :
    le32 [b0, b1, b2] = b0.setWidth 32 ||| (b1.setWidth 32 <<< 8) ||| (b2.setWidth 32 <<< 16) := by
  rw [le32_cons, le32_two, BitVec.shiftLeft_or_distrib, ← BitVec.shiftLeft_add, ← BitVec.or_assoc]

theorem le32_four (b0 b1 b2 b3 : Byte) : le32 [b0, b1, b2, b3] =
    b0.setWidth 32 ||| (b1.setWidth 32 <<< 8) ||| (b2.setWidth 32 <<< 16) ||| (b3.setWidth 32 <<< 24) := by
  rw [le32_cons, le32_three, BitVec.shiftLeft_or_distrib, BitVec.shiftLeft_or_distrib, ← BitVec.shiftLeft_add,
    ← BitVec.shiftLeft_add, ← BitVec.or_assoc, ← BitVec.or_assoc]

/-- The same four bytes side by side, the last one in front. -/
theorem le32_four_eq_append (b0 b1 b2 b3 : Byte) : le32 [b0, b1, b2, b3] = b3 ++ b2 ++ b1 ++ b0 := by
  have h0 := b0.isLt
  have h1 := b1.isLt
  have h2 := b2.isLt
  have h3 := b3.isLt
  apply BitVec.eq_of_toNat_eq
  rw [BitVec.toNat_append, BitVec.toNat_append, BitVec.toNat_append, shiftLeft_or_eq_add h2, shiftLeft_or_eq_add h1,
    shiftLeft_or_eq_add h0]
  simp only [le32, leNat, BitVec.toNat_ofNat]
  omega

theorem le32_zeros (m : Nat) : le32 (List.replicate m 0) = 0 := by
  induction m with
  | zero => rfl
  | succ m ih => rw [List.replicate_succ, le32_cons, ih]; rfl

/-! ### Malformed words -/

/-- A word with the OP of `v`, which takes no count, but other than `v` has a count or a reserved bit
(30_encoding.md R88). -/
theorem execute_of_malformed {w v : Word} (hop : wordOp w = v.toNat) (hv : v.toNat ≠ 4) (hne : w ≠ v) (s : State) :
    execute w s = .next (s.recordError .illegal) := by
  have hw := word_eq_fields w
  have hne' : w.toNat ≠ v.toNat := fun h => hne (BitVec.eq_of_toNat_eq h)
  refine execute_of_reserved ?_ s
  by_cases hcount : wordCount w = 0
  · exact .inr (.inr (.inr (by omega)))
  · exact .inr (.inr (.inl ⟨by omega, hcount⟩))

end Sys2Proof.Machine
end

section
/-! PROOF. The 32-bit engine (40_engine32.md): its functions and the commands INIT32 and SUM32. -/

namespace Sys2Proof.Machine

/-! ### The pure functions -/

theorem rotl32_injective {r : Nat} (hr : r < 32) : Function.Injective (fun x : Word32 => rotl32 x r) := by
  simpa only [rotl32_eq_rotateLeft _ hr] using rotateLeft_injective r

theorem mix32_injective : Function.Injective mix32 :=
  (mul_injective_of_odd (c := (0x1b873593 : Word32)) (by decide)).comp
    ((rotl32_injective (r := 15) (by decide)).comp (mul_injective_of_odd (c := (0xcc9e2d51 : Word32)) (by decide)))

theorem mix32_zero : mix32 0 = 0 := by decide

/-- Settles O48: Mix32 is two odd multipliers with a rotate between them. -/
theorem mix32IsABijection : Obligations.Mix32IsABijection := by
  refine ⟨fun k => ?_, mix32_injective.bijective_of_finite, mix32_zero⟩
  rw [mix32, rotl32_eq_rotateLeft _ (by decide), BitVec.mul_comm, BitVec.mul_comm k]

theorem fmix32_injective : Function.Injective fmix32 :=
  (xor_ushiftRight_injective (n := 16) (by decide)).comp <|
    (mul_injective_of_odd (c := (0xc2b2ae35 : Word32)) (by decide)).comp <|
    (xor_ushiftRight_injective (n := 13) (by decide)).comp <|
    (mul_injective_of_odd (c := (0x85ebca6b : Word32)) (by decide)).comp <|
    xor_ushiftRight_injective (n := 16) (by decide)

theorem fmix32_zero : fmix32 0 = 0 := by decide

/-- Settles O49: three XORs with a right shift, and two odd multipliers between them. -/
theorem fmix32IsABijection : Obligations.Fmix32IsABijection :=
  ⟨fmix32_injective.bijective_of_finite, fmix32_zero⟩

/-- Settles O50: the load byte by byte, and then the block step on the loaded word. -/
theorem block32IsLittleEndian : Obligations.Block32IsLittleEndian := by
  intro h b0 b1 b2 b3
  refine ⟨le32_four b0 b1 b2 b3, ?_⟩
  rw [block32, le32_four_eq_append, rotl32_eq_rotateLeft _ (by decide), BitVec.add_comm, BitVec.mul_comm]

theorem final32_nil (h : Word32) (l : Word) : final32 h [] l = fmix32 (h ^^^ l.setWidth 32) := rfl

theorem final32_cons (h : Word32) (b : Byte) (bs : List Byte) (l : Word) :
    final32 h (b :: bs) l = fmix32 (h ^^^ mix32 (le32 (b :: bs)) ^^^ l.setWidth 32) := by
  rw [final32, tail32, if_neg (by simp)]

/-- Settles O51: a tail that is not empty is loaded as a block is, and mixed in. -/
theorem final32PacksTheTailLittleEndian : Obligations.Final32PacksTheTailLittleEndian := by
  intro h t0 t1 t2 l
  refine ⟨final32_nil h l, ?_, ?_, ?_⟩
  · rw [final32_cons, le32_one]
  · rw [final32_cons, le32_two]
  · rw [final32_cons, le32_three]

/-- Zero bytes as a tail leave the accumulator: their word is 0, which mixes to 0. -/
theorem tail32_zeros (h : Word32) (m : Nat) : tail32 h (List.replicate m 0) = h := by
  rw [tail32]
  split
  · rfl
  · rw [le32_zeros, mix32_zero]
    exact BitVec.xor_zero

/-- Fewer bytes than a block are all tail. -/
theorem digest32_of_short (s : Word32) {data : List Byte} (hl : data.length < 4) :
    digest32 s data = final32 s data (BitVec.ofNat 64 data.length) := by
  rw [digest32, blocks32_eq, foldBlocks_short _ _ hl, Nat.div_eq_of_lt hl]
  rfl

theorem digest32_zeros (s : Word32) {m : Nat} (hm : m ≤ 3) :
    digest32 s (List.replicate m 0) = fmix32 (s ^^^ BitVec.ofNat 32 m) := by
  rw [digest32_of_short s (by rw [List.length_replicate]; omega), final32, tail32_zeros, List.length_replicate,
    BitVec.setWidth_ofNat_of_le (by decide)]

/-- Settles O54: the empty input is no zero byte, and the values are those of Fmix32 at 0, 1 and 2. -/
theorem digest32OfNothingAndOfZeros : Obligations.Digest32OfNothingAndOfZeros := by
  refine ⟨fun s => ?_, fun s m hm => digest32_zeros s hm, ?_, ?_, ?_⟩
  · have h := digest32_zeros s (Nat.zero_le 3)
    rwa [BitVec.ofNat_eq_ofNat, BitVec.xor_zero] at h
  · decide
  · decide
  · decide

/-! ### The commands -/

/-- INIT32 is legal in every mode. -/
theorem exec_init32 (s : State) : exec .init32 s = .next (s.startStream .m32 ((seed32 s).setWidth 64) 0) :=
  exec_of_no_modeError rfl rfl

/-- Settles O25: INIT32 starts a stream, whose frame the updates of the state give. -/
theorem init32StartsAnM32Stream : Obligations.Init32StartsAnM32Stream := by
  refine ⟨rfl, fun s => ⟨_, exec_init32 s, startStream_mode _ _ _ _, ?_, ?_⟩,
    fun w s hop hne => execute_of_malformed hop (by decide) hne s⟩
  · rw [startStream_h1, BitVec.toNat_setWidth_of_le (by decide), seed32, BitVec.toNat_setWidth]
  · simp [State.sameDigest, State.sameOperands, State.samePort]

/-- SUM32 in its own mode. -/
theorem exec_sum32 {s : State} (hm : s.mode = .m32) :
    exec .sum32 s = .next (s.setDigest ((final32 (s.h1.setWidth 32) s.pend s.len).setWidth 64) 0) :=
  exec_of_no_modeError rfl ((modeError_sum32_eq_none _).2 hm)

/-- Settles O28: SUM32 writes the digest of the state it finds, and each other mode forbids it. -/
theorem sum32WritesTheDigest : Obligations.Sum32WritesTheDigest := by
  refine ⟨rfl, fun s hm => ⟨_, exec_sum32 hm, ?_, setDigest_dig1 _ _ _, ?_⟩,
    fun s hm => exec_of_modeError rfl (by rw [hm]; rfl), fun s hm => exec_of_modeError rfl (by rw [hm]; rfl),
    fun w s hop hne => execute_of_malformed hop (by decide) hne s⟩
  · rw [setDigest_dig0, BitVec.toNat_setWidth_of_le (by decide), final32, BitVec.setWidth_eq_extractLsb' (by decide),
      BitVec.setWidth_eq_extractLsb' (by decide)]
  · simp [State.sameStream, State.sameOperands, State.samePort]

end Sys2Proof.Machine
end

section
/-! PROOF. The 128-bit engine (41_engine128.md): its functions and the commands INIT128, INIT64 and SUM128. -/

namespace Sys2Proof.Machine

/-! ### Loads of 64 bits -/

/-- The rotate of 00_scope.md R10 is the library's. -/
theorem rotl64_eq_rotateLeft (x : Word) {r : Nat} (hr : r < 64) : rotl64 x r = x.rotateLeft r :=
  (BitVec.rotateLeft_eq_rotateLeftAux_of_lt hr).symm

/-- The first `n` bytes of a number load as the number modulo 2^(8n), with zero high bytes. -/
theorem le64_low_bytes (v n : Nat) :
    le64 ((List.range n).map (fun i => BitVec.ofNat 8 (v / 256 ^ i))) = BitVec.ofNat 64 (v % 2 ^ (8 * n)) := by
  rw [le64, leNat_bytes, Nat.pow_mul]

theorem le64_chunk_of_le_eight (a0 a1 : Word) {n : Nat} (h : n ≤ 8) :
    le64 (chunk a0 a1 n) = BitVec.ofNat 64 (a0.toNat % 2 ^ (8 * n)) := by
  rw [chunk_le_eight a0 a1 n h, le64_low_bytes]

theorem le64_chunk_take_eight (a0 a1 : Word) (n : Nat) : le64 ((chunk a0 a1 (8 + n)).take 8) = a0 := by
  rw [chunk_add_eight, List.take_left' (chunk_length a0 a1 8), chunk_le_eight a0 a1 8 (Nat.le_refl 8), le64_word_bytes]

theorem le64_chunk_drop_eight (a0 a1 : Word) (n : Nat) :
    le64 ((chunk a0 a1 (8 + n)).drop 8) = BitVec.ofNat 64 (a1.toNat % 2 ^ (8 * n)) := by
  rw [chunk_add_eight, List.drop_left' (chunk_length a0 a1 8), le64_low_bytes]

/-! ### The block step -/

/-- MixK1 as 41_engine128.md R131 writes it. -/
theorem mixK1_eq (k : Word) : mixK1 k = (k * 0x87c37b91114253d5).rotateLeft 31 * 0x4cf5ad432745937f := by
  rw [mixK1, rotl64_eq_rotateLeft _ (by decide), BitVec.mul_comm, BitVec.mul_comm c1, c1, c2]

/-- MixK2 as 41_engine128.md R132 writes it. -/
theorem mixK2_eq (k : Word) : mixK2 k = (k * 0x4cf5ad432745937f).rotateLeft 33 * 0x87c37b91114253d5 := by
  rw [mixK2, rotl64_eq_rotateLeft _ (by decide), BitVec.mul_comm, BitVec.mul_comm c2, c1, c2]

/-- Block128 as 41_engine128.md R134 writes it, on the two words the block loads as. -/
theorem block128_of_words {h1 h2 k1 k2 n1 : Word} {b : List Byte} (hk1 : le64 (b.take 8) = k1)
    (hk2 : le64 (b.drop 8) = k2) (hn : n1 = ((h1 ^^^ mixK1 k1).rotateLeft 27 + h2) * 5 + 0x52dce729) :
    block128 h1 h2 b = (n1, ((h2 ^^^ mixK2 k2).rotateLeft 31 + n1) * 5 + 0x38495ab5) := by
  have hn1 : 0x52dce729 + 5 * (rotl64 (h1 ^^^ mixK1 k1) 27 + h2) = n1 := by
    rw [hn, rotl64_eq_rotateLeft _ (by decide), BitVec.add_comm, BitVec.mul_comm]
  simp only [block128, hk1, hk2, hn1]
  rw [rotl64_eq_rotateLeft _ (by decide), BitVec.add_comm, BitVec.mul_comm]

/-- Settles O52: the chunk loads as its two words, and the block step is its formula with both mixes written out. -/
theorem block128UpdatesH2FromTheNewH1 : Obligations.Block128UpdatesH2FromTheNewH1 := by
  intro h1 h2 k1 k2 n1 hn
  obtain ⟨hk1, hk2⟩ := le64_full_chunk k1 k2
  rw [← mixK1_eq] at hn
  rw [← mixK2_eq]
  exact block128_of_words hk1 hk2 hn

/-! ### The tail and the finalization -/

theorem tail128_nil (h1 h2 : Word) : tail128 h1 h2 [] = (h1, h2) := rfl

theorem tail128_of_le_eight (h1 h2 : Word) {t : List Byte} (h0 : 0 < t.length) (h8 : t.length ≤ 8) :
    tail128 h1 h2 t = (h1 ^^^ mixK1 (le64 t), h2) := by
  rw [tail128, if_pos h0, if_neg (by omega), List.take_of_length_le h8]

theorem tail128_of_gt_eight (h1 h2 : Word) {t : List Byte} (h8 : 8 < t.length) :
    tail128 h1 h2 t = (h1 ^^^ mixK1 (le64 (t.take 8)), h2 ^^^ mixK2 (le64 (t.drop 8))) := by
  rw [tail128, if_pos (by omega), if_pos h8]

/-- Settles O53: a tail that ends in the first group loads as low bytes of k1, and a longer one as all of k1 and low
bytes of k2. -/
theorem tail128SplitsAtByteEight : Obligations.Tail128SplitsAtByteEight := by
  intro h1 h2 k1 k2 m _
  have hl : (chunk k1 k2 m).length = m := chunk_length k1 k2 m
  refine ⟨fun h0 => ?_, fun h0 h8 => ?_, fun h8 => ?_⟩
  · rw [List.length_eq_zero_iff.1 (hl.trans h0), tail128_nil]
  · rw [tail128_of_le_eight h1 h2 (by omega) (by omega), le64_chunk_of_le_eight k1 k2 h8]
  · rw [tail128_of_gt_eight h1 h2 (by omega)]
    obtain ⟨n, rfl⟩ := Nat.exists_eq_add_of_le h8.le
    rw [le64_chunk_take_eight, le64_chunk_drop_eight, Nat.add_sub_cancel_left]

/-- A tail without a ninth byte leaves h2. -/
theorem tail128_snd_of_le_eight (h1 h2 : Word) {t : List Byte} (h8 : t.length ≤ 8) : (tail128 h1 h2 t).2 = h2 :=
  if_neg (by omega)

/-- Fewer bytes than a block are all tail. -/
theorem digest128_of_short (s1 s2 : Word) {data : List Byte} (hl : data.length < 16) :
    digest128 s1 s2 data = final128 s1 s2 data (BitVec.ofNat 64 data.length) := by
  rw [digest128, blocks128_eq, foldBlocks_short _ _ hl, Nat.div_eq_of_lt hl]
  rfl

/-- With no tail and length 0 the finalization is its additions and avalanches. -/
theorem final128_nil_zero (h1 h2 : Word) : final128 h1 h2 [] 0 =
    (fmix64 (h1 + h2) + fmix64 (h1 + 2 * h2), fmix64 (h1 + h2) + 2 * fmix64 (h1 + 2 * h2)) := by
  have hadd (a b : Word) : b + (a + b) = a + 2 * b := by ring
  simp only [final128, tail128_nil, BitVec.ofNat_eq_ofNat, BitVec.xor_zero, hadd]

/-- Settles O55: the empty input is an empty tail of length 0, and the values are those of closed digests. -/
theorem digest128OfNothing : Obligations.Digest128OfNothing := by
  refine ⟨fun s1 s2 => ?_, by decide, by decide, by decide, fun h1 h2 t h8 => tail128_snd_of_le_eight h1 h2 h8⟩
  exact (digest128_of_short s1 s2 (by decide)).trans (final128_nil_zero s1 s2)

/-! ### The commands -/

/-- INIT128 is legal in every mode. -/
theorem exec_init128 (s : State) : exec .init128 s = .next (s.startStream .m128 s.arg0 s.arg1) :=
  exec_of_no_modeError rfl rfl

/-- INIT64 is legal in every mode. -/
theorem exec_init64 (s : State) : exec .init64 s = .next (s.startStream .m128 s.arg0 s.arg0) :=
  exec_of_no_modeError rfl rfl

/-- Settles O26: INIT128 starts a stream, whose frame the updates of the state give. -/
theorem init128StartsAnM128Stream : Obligations.Init128StartsAnM128Stream := by
  refine ⟨rfl, fun s => ⟨_, exec_init128 s, ?_⟩, fun s h => ?_,
    fun w s hop hne => execute_of_malformed hop (by decide) hne s⟩
  · simp [State.sameDigest, State.sameOperands, State.samePort]
  · rw [exec_init128, exec_init64, h]

/-- A stream of the 128-bit engine forbids SUM32. -/
theorem exec_sum32_of_m128 {s : State} (hm : s.mode = .m128) : exec .sum32 s = .next (s.recordError .mode) :=
  exec_of_modeError rfl (by rw [hm]; rfl)

/-- Settles O27: INIT64 starts a stream of the 128-bit engine, whose frame the updates of the state give. -/
theorem init64SeedsBothHalves : Obligations.Init64SeedsBothHalves := by
  refine ⟨rfl, fun s => ⟨_, exec_init64 s, ?_⟩, fun w s hop hne => execute_of_malformed hop (by decide) hne s⟩
  have hsum := exec_sum32_of_m128 (startStream_mode s .m128 s.arg0 s.arg0)
  simp [State.sameDigest, State.sameOperands, State.samePort, hsum]

/-- SUM128 in its own mode. -/
theorem exec_sum128 {s : State} (hm : s.mode = .m128) : exec .sum128 s = .next
    (s.setDigest (final128 s.h1 s.h2 s.pend s.len).1 (final128 s.h1 s.h2 s.pend s.len).2) :=
  exec_of_no_modeError rfl ((modeError_sum128_eq_none _).2 hm)

/-- Settles O29: SUM128 writes the digest pair of the state it finds, and each other mode forbids it. -/
theorem sum128WritesTheDigestPair : Obligations.Sum128WritesTheDigestPair := by
  refine ⟨rfl, fun s hm => ⟨_, exec_sum128 hm, ?_⟩, fun s hm => exec_of_modeError rfl (by rw [hm]; rfl),
    fun s hm => exec_of_modeError rfl (by rw [hm]; rfl),
    fun w s hop hne => execute_of_malformed hop (by decide) hne s⟩
  simp [State.sameStream, State.sameOperands, State.samePort]

end Sys2Proof.Machine
end

section
/-! PROOF. One absorbed byte, and the command WRITE (42_streaming.md R161 to R163). -/

namespace Sys2Proof.Machine

/-! ### One byte -/

/-- A byte that does not fill the block leaves the accumulators. -/
theorem absorb_partial_stream {s : State} {k : Nat} (b : Byte) (hk : s.mode.blockSize = some k)
    (h : s.blen.toNat + 1 < k) :
    (absorb s b).pend = s.pend ++ [b] ∧ (absorb s b).blen.toNat = s.blen.toNat + 1 ∧
      (absorb s b).h1 = s.h1 ∧ (absorb s b).h2 = s.h2 := by
  obtain ⟨ha, hpend, hblen⟩ := absorb_partial b hk h
  refine ⟨hpend, hblen, ?_, ?_⟩ <;> rw [ha]
  · rw [advanceCursor_h1, putByte_h1]
  · rw [advanceCursor_h2, putByte_h2]

/-- Settles O30: in each engine a byte below the block size joins the pending bytes, and the one that reaches it runs
the block step. -/
theorem absorbTakesOneByte : Obligations.AbsorbTakesOneByte := by
  intro s b
  obtain ⟨fmode, ferr, fa0, fa1, fd0, fd1, fport, freads, flen⟩ := absorb_frame s b
  refine ⟨fun hm _ => ⟨fun hlt => ?_, fun hfull => ?_⟩, fun hm => ⟨fun hlt => ?_, fun hfull => ?_⟩,
    flen, fmode, ferr, ⟨fa0, fa1⟩, ⟨fd0, fd1⟩, fport, freads⟩
  · exact absorb_partial_stream (k := 4) b (by rw [hm]; rfl) (by omega)
  · obtain ⟨hh1, hh2, hpend, hblen⟩ := absorb_full32 b hm hfull
    refine ⟨hpend, hblen, hh2, ?_⟩
    rw [hh1, BitVec.toNat_setWidth_of_le (by decide), BitVec.setWidth_eq_extractLsb' (by decide)]
  · exact absorb_partial_stream (k := 16) b (by rw [hm]; rfl) (by omega)
  · obtain ⟨hacc, hpend, hblen⟩ := absorb_full128 b hm hfull
    exact ⟨hpend, hblen, hacc⟩

/-! ### WRITE -/

theorem write_wf {n : BitVec 5} (hn : n.toNat ≤ 16) : (Instr.write n).wf = true := decide_eq_true hn

/-- WRITE in a bound core. -/
theorem exec_write {n : BitVec 5} {s : State} (hn : n.toNat ≤ 16) (hm : s.mode ≠ .none) :
    exec (.write n) s = .next (absorbAll s (chunk s.arg0 s.arg1 n.toNat)) :=
  exec_of_no_modeError (write_wf hn) ((modeError_write_eq_none n _).2 hm)

/-- A WRITE with a count above 16 or a reserved bit (30_encoding.md R88). -/
theorem wordReserved_of_malformed_write {w : Word} (hop : wordOp w = 4) (h : 16 < wordCount w ∨ wordRsv w ≠ 0) :
    wordReserved w :=
  h.elim (fun hn => .inr (.inl ⟨hop, hn⟩)) (fun hr => .inr (.inr (.inr hr)))

/-- Settles O31: the bytes absorbed are the chunk, whose length is the count, and they leave the rest alone. -/
theorem writeAbsorbsItsChunk : Obligations.WriteAbsorbsItsChunk := by
  refine ⟨fun n => encode_toNat (.write n), fun n s hn hm => ⟨_, exec_write hn hm, rfl, ?zero, ?frame⟩,
    fun n s hn hm => exec_of_modeError (write_wf hn) (by rw [hm]; rfl),
    fun w s hop h => execute_of_reserved (wordReserved_of_malformed_write hop h) s⟩
  case zero =>
    rintro rfl
    exact absorbAll_nil s
  case frame =>
    obtain ⟨fmode, ferr, fa0, fa1, fd0, fd1, fport, freads, flen⟩ :=
      absorbAll_frame (chunk s.arg0 s.arg1 n.toNat) s
    rw [chunk_length, BitVec.ofNat_toNat] at flen
    exact ⟨flen, fmode, ferr, ⟨fa0, fa1⟩, ⟨fd0, fd1⟩, fport, freads⟩

/-- Settles O33: absorbing byte by byte is the block loop of each engine, and the chunk has as many bytes as the
count says. -/
theorem writeProcessesAllFullBlocks : Obligations.WriteProcessesAllFullBlocks := by
  intro n s hn hinv
  obtain ⟨-, h32, -⟩ := hinv
  refine ⟨fun hm => ⟨_, exec_write hn (by simp [hm]), ?_⟩, fun hm => ⟨_, exec_write hn (by simp [hm]), ?_⟩⟩
  · obtain ⟨hblen, -, hh1, -⟩ := h32 hm
    have h := absorbAll_m32 (chunk s.arg0 s.arg1 n.toNat) hm hblen (eq_setWidth_of_lt hh1)
    rwa [chunk_length] at h
  · have h := absorbAll_m128 (chunk s.arg0 s.arg1 n.toNat) hm
    rwa [chunk_length] at h

end Sys2Proof.Machine
end

section
/-! PROOF. The streaming laws (42_streaming.md R164 to R166): a digest is the one-shot digest of the message written,
only the concatenation of the chunks counts, and a SUM leaves the stream as it found it. -/

namespace Sys2Proof.Machine

/-! ### Streams of one message -/

theorem sameLive.symm {s t : State} (h : sameLive s t) : sameLive t s := by
  obtain ⟨⟨hmode, hh1, hh2, hbuf, hblen, hlen⟩, hdraws⟩ := h
  exact ⟨⟨hmode.symm, hh1.symm, hh2.symm, hbuf.symm, hblen.symm, hlen.symm⟩, hdraws.symm⟩

/-- The stream does not hold the pending events. -/
theorem sameLive_setPort (s : State) (es : List Event) : sameLive s (s.setPort es) :=
  ⟨⟨rfl, rfl, rfl, rfl, rfl, rfl⟩, rfl⟩

/-- An INIT, which no mode forbids, and events that restart nothing: the stream started has absorbed the message
they write. -/
theorem run_started {s : State} {i : Instr} {m : Mode} {x1 x2 : Word} {h : Nat} {es rest : List Event}
    (hp : s.port = issue h i :: (es ++ rest)) (hr : ∀ e ∈ es, restarts e = false) (hw : i.wf = true)
    (hi : modeError i s.mode = none) (hm : m ≠ .none)
    (hst : effect i (s.setPort (es ++ rest)) = (s.setPort (es ++ rest)).startStream m x1 x2) :
    ∃ t : State, Host.Core.run Sys2Proof.core (es.length + 1) s = .next t ∧ t.port = rest ∧
      (absorbAll ((s.setPort (es ++ rest)).startStream m x1 x2) (messageOf es s.arg0 s.arg1)).sameStream t := by
  have hstep := step_of_issue hw hi hp
  rw [hst] at hstep
  obtain ⟨t, ht, htp, htl, -⟩ := run_live es rest (s := (s.setPort (es ++ rest)).startStream m x1 x2) hr hm rfl
  exact ⟨t, (run_succ _ hstep).trans ht, htp, htl⟩

/-- SUM32 in a stream that was started and has absorbed `m`. -/
theorem step_of_sum32 {u t : State} {h : Nat} {seed : Word32} {m : List Byte} {rest : List Event}
    (hl : (absorbAll (u.startStream .m32 (seed.setWidth 64) 0) m).sameStream t)
    (hp : t.port = issue h .sum32 :: rest) :
    step t = .next ((t.setPort rest).setDigest ((digest32 seed m).setWidth 64) 0) := by
  have hm : t.mode = .m32 := by rw [hl.1, absorbAll_mode, startStream_mode]
  rw [step_of_issue rfl ((modeError_sum32_eq_none _).2 hm) hp, effect, setPort_h1, setPort_pend, setPort_len,
    final32_of_started hl]

/-- Settles O41: the stream INIT32 started has absorbed the message when SUM32 is performed. -/
theorem streaming32IsOneShot : Obligations.Streaming32IsOneShot := by
  intro s h h' es rest hr hp
  obtain ⟨t, ht, htp, htl⟩ := run_started hp hr rfl rfl (by decide) rfl
  have hsum := step_of_sum32 htl htp
  exact ⟨_, (run_add _ 1 ht).trans (run_succ 0 hsum), rfl, setDigest_dig0 _ _ _, setDigest_dig1 _ _ _⟩

/-- INIT128 or INIT64, events that restart nothing, and SUM128: the digest pair is that of the message. -/
theorem run_started_sum128 {s : State} {i : Instr} {x1 x2 : Word} {h h' : Nat} {es rest : List Event}
    (hp : s.port = issue h i :: (es ++ issue h' .sum128 :: rest)) (hr : ∀ e ∈ es, restarts e = false)
    (hw : i.wf = true) (hi : modeError i s.mode = none) (hst : ∀ u : State, u.arg0 = s.arg0 → u.arg1 = s.arg1 →
      effect i u = u.startStream .m128 x1 x2) :
    ∃ t : State, Host.Core.run Sys2Proof.core (es.length + 2) s = .next t ∧ t.port = rest ∧
      (t.dig0, t.dig1) = digest128 x1 x2 (messageOf es s.arg0 s.arg1) := by
  obtain ⟨t, ht, htp, htl⟩ := run_started hp hr hw hi (by decide) (hst _ rfl rfl)
  have hsum := step_of_sum128 htl htp
  exact ⟨_, (run_add _ 1 ht).trans (run_succ 0 hsum), rfl, by rw [setDigest_dig0, setDigest_dig1]⟩

/-- Settles O42: INIT128 starts the stream from ARG0 and ARG1. -/
theorem streaming128IsOneShot : Obligations.Streaming128IsOneShot := by
  intro s h h' es rest hr hp
  exact run_started_sum128 hp hr rfl rfl fun u h0 h1 => by rw [effect, h0, h1]

/-- Settles O43: INIT64 starts the stream from ARG0 twice, and the digest is the first word of the pair. -/
theorem streaming64IsOneShot : Obligations.Streaming64IsOneShot := by
  intro s h h' es rest hr hp
  obtain ⟨t, ht, htp, hd⟩ := run_started_sum128 hp hr rfl rfl fun u h0 _ => by rw [effect, h0]
  exact ⟨t, ht, htp, congrArg Prod.fst hd⟩

/-- Settles O44: both runs absorb the one message from the one stream, and draw as often. -/
theorem chunkBoundariesDoNotMatter : Obligations.ChunkBoundariesDoNotMatter := by
  rintro s _ es es' rfl hp hm hr hmsg
  obtain ⟨hr1, hr2⟩ := List.forall_mem_append.1 hr
  obtain ⟨t, ht, -, htl⟩ := run_live es [] hr1 hm (by rw [hp, List.append_nil])
  obtain ⟨t', ht', -, htl'⟩ := run_live es' [] (s := s.setPort es') hr2 hm (List.append_nil es').symm
  rw [setPort_arg0, setPort_arg1, ← hmsg] at htl'
  have habs := absorbAll_sameLive (messageOf es s.arg0 s.arg1) (sameLive_setPort s es')
  obtain ⟨hsame, -⟩ := htl.symm.trans (habs.trans htl')
  exact ⟨t, t', ht, ht', hsame⟩

/-! ### A SUM is a snapshot -/

theorem messageOf_of_no_write {es : List Event} (h : ∀ e ∈ es, ∀ n, issuedCommand e ≠ some (.write n)) (a0 a1 : Word) :
    messageOf es a0 a1 = [] := by
  induction es generalizing a0 a1 with
  | nil => rfl
  | cons e es ih =>
    obtain ⟨he, hes⟩ := List.forall_mem_cons.1 h
    have hb : bytesWritten e a0 a1 = [] := by
      rw [bytesWritten]
      split
      next n hn => exact absurd hn (he n)
      next => rfl
    rw [messageOf, hb, ih hes, List.nil_append]

theorem effect_sum_sameLive {i : Instr} (hi : i = .sum32 ∨ i = .sum128) (s : State) : sameLive s (effect i s) := by
  rcases hi with rfl | rfl <;> simp [sameLive, State.sameStream, effect]

/-- The digest is a function of the stream. -/
theorem effect_sum_sameDigest {i : Instr} (hi : i = .sum32 ∨ i = .sum128) {s t : State} (h : s.sameStream t) :
    (effect i s).sameDigest (effect i t) := by
  have hpend := pend_of_sameStream h
  obtain ⟨-, hh1, hh2, -, -, hlen⟩ := h
  rcases hi with rfl | rfl <;> simp [State.sameDigest, effect, hh1, hh2, hpend, hlen]

/-- One SUM twice, with events between them that restart nothing and write nothing: the second SUM finds the
stream of the first. -/
theorem run_sum_twice {s : State} {i : Instr} {h h' : Nat} {es rest : List Event} (hsum : i = .sum32 ∨ i = .sum128)
    (hm : s.mode ≠ .none) (hi : modeError i s.mode = none) (hr : ∀ e ∈ es, restarts e = false)
    (hwr : ∀ e ∈ es, ∀ n, issuedCommand e ≠ some (.write n)) (hp : s.port = issue h i :: (es ++ issue h' i :: rest)) :
    ∃ t u : State, step s = .next t ∧ Host.Core.run Sys2Proof.core (es.length + 2) s = .next u ∧ t.sameDigest u := by
  have hw : i.wf = true := by rcases hsum with rfl | rfl <;> rfl
  have h1 := step_of_issue hw hi hp
  have hport := (effect_frame i (s.setPort (es ++ issue h' i :: rest))).1
  have hlive := effect_sum_sameLive hsum (s.setPort (es ++ issue h' i :: rest))
  obtain ⟨v, hv, hvp, hvl⟩ := run_live es (issue h' i :: rest) hr (by rwa [mode_of_sameLive hlive]) hport
  rw [messageOf_of_no_write hwr, absorbAll_nil] at hvl
  have hsv := hlive.trans hvl
  have h2 := step_of_issue hw (by rwa [mode_of_sameLive hsv]) hvp
  have hsame := hsv.trans (sameLive_setPort v rest)
  exact ⟨_, _, h1, (run_succ _ h1).trans ((run_add _ 1 hv).trans (run_succ 0 h2)),
    effect_sum_sameDigest hsum hsame.1⟩

/-! ### A digest enters nothing that follows -/

theorem setDigest_setDigest (s : State) (d0 d1 e0 e1 : Word) :
    (s.setDigest d0 d1).setDigest e0 e1 = s.setDigest e0 e1 := rfl

theorem putByte_setDigest (s : State) (d0 d1 : Word) (b : Byte) :
    (s.setDigest d0 d1).putByte b = (s.putByte b).setDigest d0 d1 := rfl

theorem processBlock_setDigest (s : State) (d0 d1 : Word) :
    processBlock (s.setDigest d0 d1) = (processBlock s).setDigest d0 d1 := by
  cases hm : s.mode <;> simp only [processBlock, setDigest_mode, hm] <;> rfl

/-- Absorbing neither reads nor writes the digest. -/
theorem absorb_setDigest (s : State) (d0 d1 : Word) (b : Byte) :
    absorb (s.setDigest d0 d1) b = (absorb s b).setDigest d0 d1 := by
  unfold absorb
  rw [setDigest_mode, setDigest_blen]
  split
  · rw [putByte_setDigest, processBlock_setDigest]
    rfl
  · rfl

theorem absorbAll_setDigest (s : State) (d0 d1 : Word) (bs : List Byte) :
    absorbAll (s.setDigest d0 d1) bs = (absorbAll s bs).setDigest d0 d1 := by
  induction bs generalizing s with
  | nil => rfl
  | cons b bs ih => rw [absorbAll_cons, absorbAll_cons, absorb_setDigest, ih]

/-- A command commutes with a change of the digest, which a SUM overwrites. -/
theorem effect_setDigest (i : Instr) (s : State) (d0 d1 : Word) :
    ∃ e0 e1, effect i (s.setDigest d0 d1) = (effect i s).setDigest e0 e1 := by
  cases i with
  | write n =>
    refine ⟨d0, d1, ?_⟩
    rw [effect, effect, absorbAll_setDigest, setDigest_arg0, setDigest_arg1]
  | sum32 | sum128 => exact ⟨_, _, (setDigest_setDigest s d0 d1 _ _).trans (setDigest_setDigest s _ _ _ _).symm⟩
  | _ => exact ⟨d0, d1, rfl⟩

/-- Both outcomes are next states, which differ at most in the digest and in the values returned. -/
def outcomesDifferInDigest (r r' : Result) : Prop :=
  ∃ t t' : State, r = .next t ∧ r' = .next t' ∧ { t' with dig0 := t.dig0, dig1 := t.dig1, reads := t.reads } = t

theorem outcomesDifferInDigest_setDigest (t : State) (d0 d1 : Word) :
    outcomesDifferInDigest (.next t) (.next (t.setDigest d0 d1)) := ⟨t, _, rfl, rfl, rfl⟩

/-- A read may return the digest itself. -/
theorem outcomesDifferInDigest_returnRead (t : State) (d0 d1 : Word) (h : Nat) (v v' : Word) :
    outcomesDifferInDigest (.next (t.returnRead h v)) (.next ((t.setDigest d0 d1).returnRead h v')) :=
  ⟨_, _, rfl, rfl, rfl⟩

/-- MODE decides whether the command takes effect, and the digest does not enter MODE. -/
theorem outcomesDifferInDigest_exec {i : Instr} (hw : i.wf = true) (s : State) (d0 d1 : Word) :
    outcomesDifferInDigest (exec i s) (exec i (s.setDigest d0 d1)) := by
  cases hi : modeError i s.mode with
  | some c =>
    rw [exec_of_modeError hw hi, exec_of_modeError (s := s.setDigest d0 d1) hw hi]
    exact outcomesDifferInDigest_setDigest (s.recordError c) d0 d1
  | none =>
    obtain ⟨e0, e1, he⟩ := effect_setDigest i s d0 d1
    rw [exec_of_no_modeError hw hi, exec_of_no_modeError (s := s.setDigest d0 d1) hw hi, he]
    exact outcomesDifferInDigest_setDigest (effect i s) e0 e1

theorem outcomesDifferInDigest_execute (w : Word) (s : State) (d0 d1 : Word) :
    outcomesDifferInDigest (execute w s) (execute w (s.setDigest d0 d1)) := by
  by_cases hres : wordReserved w
  · rw [execute_of_reserved hres, execute_of_reserved hres]
    exact outcomesDifferInDigest_setDigest (s.recordError .illegal) d0 d1
  · obtain ⟨i, hd, hw, -⟩ := decode_of_not_reserved w hres
    rw [execute_of_decode hd, execute_of_decode hd]
    exact outcomesDifferInDigest_exec hw s d0 d1

theorem outcomesDifferInDigest_regWrite (r : Reg) (v : Word) (s : State) (d0 d1 : Word) :
    outcomesDifferInDigest (regWrite r v s) (regWrite r v (s.setDigest d0 d1)) := by
  cases r with
  | cmd => exact outcomesDifferInDigest_execute v s d0 d1
  | arg0 => exact outcomesDifferInDigest_setDigest (s.setArg0 v) d0 d1
  | arg1 => exact outcomesDifferInDigest_setDigest (s.setArg1 v) d0 d1
  | _ => exact outcomesDifferInDigest_setDigest (s.recordError .bus) d0 d1

theorem outcomesDifferInDigest_access (a : Access) (s : State) (d0 d1 : Word) :
    outcomesDifferInDigest (perform (.access a) s) (perform (.access a) (s.setDigest d0 d1)) := by
  obtain ⟨h, off, size, tr⟩ := a
  by_cases hd : size ≠ 8 ∨ off.val % 8 ≠ 0
  · cases tr with
    | read =>
      rw [perform_read_of_defect hd, perform_read_of_defect hd]
      exact outcomesDifferInDigest_returnRead (s.recordError .bus) d0 d1 h 0 0
    | write v =>
      rw [perform_write_of_defect hd, perform_write_of_defect hd]
      exact outcomesDifferInDigest_setDigest (s.recordError .bus) d0 d1
  · obtain ⟨rfl, h8⟩ : size = 8 ∧ off.val % 8 = 0 := by omega
    cases tr with
    | read =>
      rw [perform_read_of_legal h8, perform_read_of_legal h8]
      exact outcomesDifferInDigest_returnRead s d0 d1 h _ _
    | write v =>
      rw [perform_write_of_legal h8, perform_write_of_legal h8]
      exact outcomesDifferInDigest_regWrite _ v s d0 d1

/-- Settles O45: the second SUM finds the stream the first one left, and only a read of the digest tells two states
apart that differ in it. -/
theorem sumIsASnapshot : Obligations.SumIsASnapshot := by
  refine ⟨fun s h h' i es rest hi hes hp => ?_, fun s e d0 d1 => ?_⟩
  · have hr : ∀ e ∈ es, restarts e = false := fun e he => (hes e he).1
    have hwr : ∀ e ∈ es, ∀ n, issuedCommand e ≠ some (.write n) := fun e he => (hes e he).2
    rcases hi with ⟨hm, rfl⟩ | ⟨hm, rfl⟩
    · exact run_sum_twice (.inl rfl) (by simp [hm]) ((modeError_sum32_eq_none _).2 hm) hr hwr hp
    · exact run_sum_twice (.inr rfl) (by simp [hm]) ((modeError_sum128_eq_none _).2 hm) hr hwr hp
  · cases e with
    | reset => exact ⟨_, _, rfl, rfl, rfl⟩
    | access a => exact outcomesDifferInDigest_access a s d0 d1

end Sys2Proof.Machine
end

section
/-! PROOF. The control commands NOP and CLRERR (43_control.md), and how long a recorded error stays. -/

namespace Sys2Proof.Machine

/-! ### NOP -/

/-- NOP is legal in every mode. -/
theorem exec_nop (s : State) : exec .nop s = .next s := exec_of_no_modeError rfl rfl

/-- Settles O23: NOP has no effect, and a word with its OP other than 0 is reserved. -/
theorem nopChangesNothing : Obligations.NopChangesNothing :=
  ⟨rfl, exec_nop, fun _ s hop hne => execute_of_malformed hop (by decide) hne s⟩

/-! ### A recorded error -/

theorem rearms_iff (e : Event) : rearms e = true ↔ e = .reset ∨ issuedCommand e = some .clrerr := by
  simp only [rearms, Bool.or_eq_true, beq_iff_eq]

theorem not_rearms_iff (e : Event) : rearms e = false ↔ e ≠ .reset ∧ issuedCommand e ≠ some .clrerr := by
  rw [Bool.eq_false_iff, ne_eq, rearms_iff, not_or]

@[simp] theorem absorbAll_errcode (s : State) (bs : List Byte) : (absorbAll s bs).errcode = s.errcode := by
  obtain ⟨-, h, -⟩ := absorbAll_frame bs s
  exact h

/-- Of the commands that take effect only CLRERR touches ERRCODE. -/
theorem effect_errcode {i : Instr} (hi : i ≠ .clrerr) (s : State) : (effect i s).errcode = s.errcode := by
  cases i with
  | clrerr => exact absurd rfl hi
  | _ => simp [effect]

/-- A recorded error stays through every event but CLRERR and reset (60_exceptions.md R193). -/
theorem perform_errcode_of_error {e : Event} {s t : State} (hr : rearms e = false) (herr : s.errcode ≠ .none)
    (h : perform e s = .next t) : t.errcode = s.errcode := by
  obtain ⟨hreset, hclrerr⟩ := (not_rearms_iff e).1 hr
  rcases perform_cases e s with ⟨he, -⟩ | ⟨c, -, -, hp, -⟩ | ⟨-, -, -, _, _, -, -, hp⟩ |
    ⟨-, -, _, _, _, -, ⟨-, -, hp⟩ | ⟨-, -, hp⟩⟩ | ⟨-, -, _, _, _, i, -, -, -, hi, -, -, hp⟩
  · exact absurd he hreset
  · rw [recordError_of_error c herr] at hp
    rcases hp with ⟨_, _, _, -, hp⟩ | ⟨-, hp⟩ <;> rw [hp] at h <;> cases h <;> rfl
  all_goals
    rw [hp] at h
    cases h
  · rfl
  · rfl
  · rfl
  · exact effect_errcode (fun hc => hclrerr (hc ▸ hi)) s

/-- The step form: the event is performed on the state without it on the port. -/
theorem step_errcode_of_error {e : Event} {es : List Event} {s t : State} (hr : rearms e = false)
    (herr : s.errcode ≠ .none) (hp : s.port = e :: es) (h : step s = .next t) : t.errcode = s.errcode :=
  perform_errcode_of_error (s := s.setPort es) hr herr (by rw [← step_of_port hp, h])

/-! ### CLRERR -/

/-- CLRERR is legal in every mode. -/
theorem exec_clrerr (s : State) : exec .clrerr s = .next s.clearError := exec_of_no_modeError rfl rfl

/-- Settles O24: CLRERR clears ERRCODE, a word with its OP other than 7 is reserved, and a recorded error stays
through every event that does not re-arm. -/
theorem clrerrClearsOnlyErrcode : Obligations.ClrerrClearsOnlyErrcode := by
  refine ⟨rfl, exec_clrerr, fun w s hop hne => execute_of_malformed hop (by decide) hne s,
    fun s e es t hp h herr hclear => ?_⟩
  by_contra hr
  have hkept := step_errcode_of_error (Bool.eq_false_iff.2 hr) herr hp h
  exact herr (hkept.symm.trans hclear)

end Sys2Proof.Machine
end

section
/-! PROOF. Errors (60_exceptions.md): which code an event leaves in ERRCODE, that it does nothing else, and that
ERRCODE enters no event. -/

namespace Sys2Proof.Machine

/-! ### The codes an event leaves -/

/-- Settles O18: recording tests for an earlier code, and only a re-arming event removes one. -/
theorem firstErrorIsKept : Obligations.FirstErrorIsKept :=
  ⟨fun _ _ => rfl, fun _ _ _ _ hp h herr hr => step_errcode_of_error hr herr hp h⟩

/-- An event that raises an error records it, and returns 0 if it is a read (60_exceptions.md R194). -/
theorem perform_of_raisedError {e : Event} {s : State} {c : ErrCode} (hr : raisedError e s = some c) :
    perform e s = .next (s.recordError c) ∨
      ∃ h off size, e = .access ⟨h, off, size, .read⟩ ∧ perform e s = .next ((s.recordError c).returnRead h 0) := by
  rcases perform_cases e s with ⟨rfl, -⟩ | ⟨c', hr', -, hp, -⟩ | ⟨hr', -⟩ | ⟨hr', -⟩ | ⟨hr', -⟩
  · cases hr
  · obtain rfl : c' = c := Option.some.inj (hr'.symm.trans hr)
    rcases hp with hp | ⟨-, hp⟩
    · exact .inr hp
    · exact .inl hp
  all_goals
    rw [hr'] at hr
    cases hr

/-- Settles O20: the step performs the event, which records its error. -/
theorem errorsArePrecise : Obligations.ErrorsArePrecise := by
  intro s e es c hp hr
  rw [step_of_port hp]
  exact perform_of_raisedError (s := s.setPort es) hr

theorem errcode_of_raisedError {e : Event} {s t : State} {c : ErrCode} (h0 : s.errcode = .none)
    (hr : raisedError e s = some c) (h : perform e s = .next t) : t.errcode = c := by
  have hc : (s.recordError c).errcode = c := by rw [recordError_errcode, if_pos h0]
  rcases perform_of_raisedError hr with hp | ⟨_, _, _, -, hp⟩ <;> rw [hp] at h <;> cases h <;> exact hc

/-- From ERRCODE 0 no command that takes effect sets it. -/
theorem effect_errcode_of_none (i : Instr) {s : State} (h0 : s.errcode = .none) : (effect i s).errcode = .none := by
  by_cases hi : i = .clrerr
  · subst hi
    exact clearError_errcode s
  · rw [effect_errcode hi, h0]

theorem errcode_of_no_raisedError {e : Event} {s t : State} (h0 : s.errcode = .none) (hr : raisedError e s = none)
    (h : perform e s = .next t) : t.errcode = .none := by
  rcases perform_cases e s with ⟨-, hp⟩ | ⟨c, hr', -⟩ | ⟨-, -, -, _, _, -, -, hp⟩ |
    ⟨-, -, _, _, _, -, ⟨-, -, hp⟩ | ⟨-, -, hp⟩⟩ | ⟨-, -, _, _, _, i, -, -, -, -, -, -, hp⟩
  case inr.inl =>
    rw [hr] at hr'
    cases hr'
  all_goals
    rw [hp] at h
    cases h
  · rfl
  · exact h0
  · exact h0
  · exact h0
  · exact effect_errcode_of_none i h0

/-- Settles O19: the event records the code it raises over ERRCODE 0, or raises none and sets none. -/
theorem errorTableIsFollowed : Obligations.ErrorTableIsFollowed := by
  intro s e es hp h0
  obtain ⟨t, ht⟩ := perform_next e (s.setPort es)
  exact ⟨t, (step_of_port hp).trans ht, fun c =>
    ⟨fun hr => errcode_of_raisedError (s := s.setPort es) h0 hr ht,
      fun hr => errcode_of_no_raisedError (s := s.setPort es) h0 hr ht⟩⟩

/-! ### A set ERRCODE enters nothing -/

/-- `s` with another ERRCODE. -/
def State.setErrcode (s : State) (c : ErrCode) : State := { s with errcode := c }

@[simp] theorem setErrcode_errcode (s : State) (c : ErrCode) : (s.setErrcode c).errcode = c := rfl
@[simp] theorem setErrcode_arg0 (s : State) (c : ErrCode) : (s.setErrcode c).arg0 = s.arg0 := rfl
@[simp] theorem setErrcode_arg1 (s : State) (c : ErrCode) : (s.setErrcode c).arg1 = s.arg1 := rfl

/-- Only STATUS holds ERRCODE. -/
theorem regValue_setErrcode {r : Reg} (hr : r ≠ .status) (s : State) (c : ErrCode) :
    regValue (s.setErrcode c) r = regValue s r := by
  cases r with
  | status => exact absurd rfl hr
  | _ => rfl

/-- A state that agrees with another in every field but ERRCODE. -/
theorem eq_setErrcode_of_same {s t : State} (hl : sameLive s t) (ha : s.sameOperands t) (hd : s.sameDigest t)
    (hp : s.samePort t) : t = s.setErrcode t.errcode := by
  obtain ⟨⟨hm, hh1, hh2, hbuf, hblen, hlen⟩, hdraws⟩ := hl
  obtain ⟨ha0, ha1⟩ := ha
  obtain ⟨hd0, hd1⟩ := hd
  obtain ⟨hport, hreads⟩ := hp
  rw [State.setErrcode, ← hm, ← hh1, ← hh2, ← hbuf, ← hblen, ← hlen, ← hdraws, ← ha0, ← ha1, ← hd0, ← hd1, ← hport,
    ← hreads]

/-- Absorbing neither reads nor writes ERRCODE. -/
theorem absorbAll_setErrcode (s : State) (c : ErrCode) (bs : List Byte) :
    absorbAll (s.setErrcode c) bs = (absorbAll s bs).setErrcode c := by
  have hl : sameLive s (s.setErrcode c) := sameLive.refl s
  obtain ⟨-, -, ha0, ha1, hd0, hd1, hport, hreads, -⟩ := absorbAll_frame bs s
  obtain ⟨-, herr, ha0', ha1', hd0', hd1', hport', hreads', -⟩ := absorbAll_frame bs (s.setErrcode c)
  have heq := eq_setErrcode_of_same (absorbAll_sameLive bs hl) ⟨ha0'.trans ha0.symm, ha1'.trans ha1.symm⟩
    ⟨hd0'.trans hd0.symm, hd1'.trans hd1.symm⟩ ⟨hport'.trans hport.symm, hreads'.trans hreads.symm⟩
  rwa [herr, setErrcode_errcode] at heq

/-- A command commutes with a change of ERRCODE, which CLRERR overwrites. -/
theorem effect_setErrcode (i : Instr) (s : State) (c : ErrCode) :
    ∃ c', effect i (s.setErrcode c) = (effect i s).setErrcode c' := by
  cases i with
  | write n =>
    refine ⟨c, ?_⟩
    rw [effect, effect, absorbAll_setErrcode, setErrcode_arg0, setErrcode_arg1]
  | clrerr => exact ⟨.none, rfl⟩
  | _ => exact ⟨c, rfl⟩

/-- Both outcomes are next states, which differ at most in ERRCODE. -/
def outcomesDifferInErrcode (r r' : Result) : Prop :=
  ∃ (t : State) (c : ErrCode), r = .next t ∧ r' = .next (t.setErrcode c)

/-- What is recorded over another ERRCODE is again an ERRCODE. -/
theorem outcomesDifferInErrcode_recordError (s : State) (c d : ErrCode) :
    outcomesDifferInErrcode (.next (s.recordError d)) (.next ((s.setErrcode c).recordError d)) :=
  ⟨_, if c = .none then d else c, rfl, rfl⟩

/-- MODE decides whether the command takes effect, and ERRCODE does not enter MODE. -/
theorem outcomesDifferInErrcode_exec {i : Instr} (hw : i.wf = true) (s : State) (c : ErrCode) :
    outcomesDifferInErrcode (exec i s) (exec i (s.setErrcode c)) := by
  cases hi : modeError i s.mode with
  | some d =>
    rw [exec_of_modeError hw hi, exec_of_modeError (s := s.setErrcode c) hw hi]
    exact outcomesDifferInErrcode_recordError s c d
  | none =>
    obtain ⟨c', he⟩ := effect_setErrcode i s c
    rw [exec_of_no_modeError hw hi, exec_of_no_modeError (s := s.setErrcode c) hw hi, he]
    exact ⟨_, c', rfl, rfl⟩

theorem outcomesDifferInErrcode_execute (w : Word) (s : State) (c : ErrCode) :
    outcomesDifferInErrcode (execute w s) (execute w (s.setErrcode c)) := by
  by_cases hres : wordReserved w
  · rw [execute_of_reserved hres, execute_of_reserved hres]
    exact outcomesDifferInErrcode_recordError s c .illegal
  · obtain ⟨i, hd, hw, -⟩ := decode_of_not_reserved w hres
    rw [execute_of_decode hd, execute_of_decode hd]
    exact outcomesDifferInErrcode_exec hw s c

theorem outcomesDifferInErrcode_regWrite (r : Reg) (v : Word) (s : State) (c : ErrCode) :
    outcomesDifferInErrcode (regWrite r v s) (regWrite r v (s.setErrcode c)) := by
  cases r with
  | cmd => exact outcomesDifferInErrcode_execute v s c
  | arg0 => exact ⟨s.setArg0 v, c, rfl, rfl⟩
  | arg1 => exact ⟨s.setArg1 v, c, rfl, rfl⟩
  | _ => exact outcomesDifferInErrcode_recordError s c .bus

theorem outcomesDifferInErrcode_write (h : Nat) (off : Fin 64) (size : Nat) (v : Word) (s : State) (c : ErrCode) :
    outcomesDifferInErrcode (perform (.access ⟨h, off, size, .write v⟩) s)
      (perform (.access ⟨h, off, size, .write v⟩) (s.setErrcode c)) := by
  by_cases hd : size ≠ 8 ∨ off.val % 8 ≠ 0
  · rw [perform_write_of_defect hd, perform_write_of_defect hd]
    exact outcomesDifferInErrcode_recordError s c .bus
  · obtain ⟨rfl, h8⟩ : size = 8 ∧ off.val % 8 = 0 := by omega
    rw [perform_write_of_legal h8, perform_write_of_legal h8]
    exact outcomesDifferInErrcode_regWrite _ v s c

/-- A read returns a value in both states, the same one unless the register is STATUS. -/
theorem perform_read_setErrcode (h : Nat) (off : Fin 64) (size : Nat) (s : State) (c : ErrCode) :
    ∃ (u : State) (c' : ErrCode) (v v' : Word),
      perform (.access ⟨h, off, size, .read⟩) s = .next (u.returnRead h v) ∧
      perform (.access ⟨h, off, size, .read⟩) (s.setErrcode c) = .next ((u.setErrcode c').returnRead h v') ∧
      (off.val ≠ 0x10 → v' = v) := by
  by_cases hd : size ≠ 8 ∨ off.val % 8 ≠ 0
  · rw [perform_read_of_defect hd, perform_read_of_defect hd]
    exact ⟨s.recordError .bus, if c = .none then .bus else c, 0, 0, rfl, rfl, fun _ => rfl⟩
  · obtain ⟨rfl, h8⟩ : size = 8 ∧ off.val % 8 = 0 := by omega
    rw [perform_read_of_legal h8, perform_read_of_legal h8]
    refine ⟨s, c, _, _, rfl, rfl, fun ho => ?_⟩
    rw [regValue_at off h8, regValue_at off h8, if_neg ho, if_neg ho]
    rfl

/-- Settles O22: only a read of STATUS shows ERRCODE, and every other event carries it along or overwrites it. -/
theorem errcodeEntersNoDigest : Obligations.ErrcodeEntersNoDigest := by
  intro s e c
  match e with
  | .reset => exact ⟨_, _, rfl, rfl, rfl, fun _ => rfl⟩
  | .access ⟨h, off, size, .read⟩ =>
    obtain ⟨u, c', v, v', hp, hp', hv⟩ := perform_read_setErrcode h off size s c
    refine ⟨_, _, hp, hp', rfl, fun hns => ?_⟩
    rw [hv fun ho => hns h off size ho rfl]
    rfl
  | .access ⟨h, off, size, .write v⟩ =>
    obtain ⟨t, c', hp, hp'⟩ := outcomesDifferInErrcode_write h off size v s c
    exact ⟨_, _, hp, hp', rfl, fun _ => rfl⟩

end Sys2Proof.Machine
end

section
/-! PROOF. Several hosts and several instances (60_exceptions.md R200, R203). -/

namespace Sys2Proof.Machine

/-! ### Hosts -/

/-- A read leaves a state and returns a value that do not depend on its host. -/
theorem perform_read_of_any_host (off : Fin 64) (size : Nat) (s : State) :
    ∃ (u : State) (v : Word), ∀ h, perform (.access ⟨h, off, size, .read⟩) s = .next (u.returnRead h v) := by
  by_cases hd : size ≠ 8 ∨ off.val % 8 ≠ 0
  · exact ⟨_, _, fun h => perform_read_of_defect hd h s⟩
  · obtain ⟨rfl, h8⟩ : size = 8 ∧ off.val % 8 = 0 := by omega
    exact ⟨_, _, fun h => perform_read_of_legal h8 h s⟩

/-- Settles O17: a write does not name its host, and a read names it beside the value. -/
theorem hostIdentityDoesNotMatter : Obligations.HostIdentityDoesNotMatter := by
  intro s h h' off size tr
  cases tr with
  | read =>
    obtain ⟨u, v, hp⟩ := perform_read_of_any_host off size s
    exact ⟨_, _, hp h, hp h', rfl, by simp⟩
  | write v =>
    obtain ⟨t, ht⟩ := perform_next (.access ⟨h, off, size, .write v⟩) s
    exact ⟨t, t, ht, ht, rfl, rfl⟩

/-! ### Windows -/

theorem windowOffset_eq_some_iff {base addr : Nat} {off : Fin 64} :
    windowOffset base addr = some off ↔ base + off.val = addr := by
  unfold windowOffset Config.windowBytes
  split
  · split
    · simp only [Option.some.injEq, Fin.ext_iff]
      omega
    · simp only [reduceCtorEq, false_iff]
      omega
  · simp only [reduceCtorEq, false_iff]
    omega

theorem windowOffset_eq_none_iff {base addr : Nat} :
    windowOffset base addr = none ↔ addr < base ∨ base + 64 ≤ addr := by
  simp only [Option.eq_none_iff_forall_ne_some, ne_eq, windowOffset_eq_some_iff]
  constructor
  · intro h
    by_contra hin
    exact h ⟨addr - base, by omega⟩ (by simp only; omega)
  · intro h off
    omega

/-- The windows at two multiples of 64 do not overlap. -/
theorem windowOffset_eq_none_of_other {b b' addr : Nat} {off : Fin 64} (hb : b % 64 = 0) (hb' : b' % 64 = 0)
    (hne : b ≠ b') (h : windowOffset b addr = some off) : windowOffset b' addr = none := by
  rw [windowOffset_eq_some_iff] at h
  rw [windowOffset_eq_none_iff]
  omega

/-! ### Instances -/

/-- What a bus access may make of one of the instances: it performs the access if the address lies in its window,
and stays as it is otherwise. -/
def instanceAnswers (a : BusAccess) (x y : Instance) : Prop :=
  (∀ off : Fin 64, x.base + off.val = a.addr → ∃ t,
    performAccess ⟨a.host, off, a.size, a.transfer⟩ x.core = .next t ∧ y = ⟨x.base, t⟩) ∧
  ((a.addr < x.base ∨ x.base + 64 ≤ a.addr) → y = x)

theorem instanceAnswers_of_hit {a : BusAccess} {x : Instance} {off : Fin 64} {t : State}
    (hw : windowOffset x.base a.addr = some off)
    (ht : performAccess ⟨a.host, off, a.size, a.transfer⟩ x.core = .next t) : instanceAnswers a x ⟨x.base, t⟩ := by
  rw [windowOffset_eq_some_iff] at hw
  refine ⟨fun off' ho => ?_, fun hmiss => by omega⟩
  obtain rfl : off' = off := Fin.ext (by omega)
  exact ⟨t, ht, rfl⟩

theorem instanceAnswers_of_miss {a : BusAccess} {x : Instance} (hw : windowOffset x.base a.addr = none) :
    instanceAnswers a x x := by
  rw [windowOffset_eq_none_iff] at hw
  exact ⟨fun off ho => by omega, fun _ => rfl⟩

/-- The first of the instances whose window holds the address performs the access, and no window after it holds
the address too. -/
theorem busAccess_answers (a : BusAccess) {p : List Instance} (hbase : ∀ x ∈ p, x.base % 64 = 0)
    (hnodup : (p.map Instance.base).Nodup) :
    ∃ q, busAccess a p = .next q ∧ List.Forall₂ (instanceAnswers a) p q := by
  induction p with
  | nil => exact ⟨[], rfl, .nil⟩
  | cons x xs ih =>
    obtain ⟨hx, hxs⟩ := List.forall_mem_cons.1 hbase
    obtain ⟨hnotin, hnodup'⟩ := List.nodup_cons.1 hnodup
    cases hw : windowOffset x.base a.addr with
    | some off =>
      obtain ⟨t, ht⟩ := perform_next (.access ⟨a.host, off, a.size, a.transfer⟩) x.core
      rw [perform] at ht
      refine ⟨⟨x.base, t⟩ :: xs, by simp only [busAccess, hw, ht], .cons (instanceAnswers_of_hit hw ht) ?_⟩
      refine List.forall₂_same.2 fun y hy => instanceAnswers_of_miss ?_
      have hne : x.base ≠ y.base := fun h => hnotin (h ▸ List.mem_map_of_mem hy)
      exact windowOffset_eq_none_of_other hx (hxs y hy) hne hw
    | none =>
      obtain ⟨q, hq, hans⟩ := ih hxs hnodup'
      exact ⟨x :: q, by simp only [busAccess, hw, hq], .cons (instanceAnswers_of_miss hw) hans⟩

theorem platformWf_iff (p : List Instance) :
    platformWf p = true ↔ p ≠ [] ∧ (∀ x ∈ p, x.base % 64 = 0) ∧ (p.map Instance.base).Nodup := by
  simp [platformWf, and_assoc]

/-- Settles O57: of the instances one by one, each performs the access or stays. -/
theorem instancesAreIndependent : Obligations.InstancesAreIndependent := by
  intro p a hwf
  obtain ⟨-, hbase, hnodup⟩ := (platformWf_iff p).1 hwf
  obtain ⟨q, hq, hans⟩ := busAccess_answers a hbase hnodup
  obtain ⟨hlen, hget⟩ := List.forall₂_iff_get.1 hans
  refine ⟨q, hq, hlen.symm, fun j x hx => ?_⟩
  obtain ⟨hj, rfl⟩ := List.getElem?_eq_some_iff.1 hx
  obtain ⟨hhit, hmiss⟩ := hget j hj (hlen ▸ hj)
  rw [List.getElem?_eq_getElem (hlen ▸ hj)]
  refine ⟨fun off ho => ?_, fun ho => congrArg some (hmiss ho)⟩
  obtain ⟨t, ht, hy⟩ := hhit off ho
  exact ⟨t, ht, congrArg some hy⟩

end Sys2Proof.Machine
end

section
/-! PROOF. Reset, idling and liveness (70_reset_and_hazards.md R220, R221, R228, R231): what resets the core, that
everything completes, and that one check of ERRCODE at the end finds every error. -/

namespace Sys2Proof.Machine

/-! ### Completion -/

/-- A term that is no command is a WRITE whose count is too large, which R163 calls illegal (log 11). -/
theorem exec_of_not_wf {i : Instr} (hw : ¬ i.wf = true) (s : State) : exec i s = .next (s.recordError .illegal) := by
  cases i with
  | write n => exact if_pos (Nat.lt_of_not_le fun hn => hw (write_wf hn))
  | _ => exact absurd rfl hw

/-- Every command completes: one that is malformed or that its mode forbids records an error. -/
theorem exec_next (i : Instr) (s : State) : ∃ t, exec i s = .next t := by
  by_cases hw : i.wf = true
  · cases hm : modeError i s.mode with
    | none => exact ⟨_, exec_of_no_modeError hw hm⟩
    | some c => exact ⟨_, exec_of_modeError hw hm⟩
  · exact ⟨_, exec_of_not_wf hw s⟩

/-- Every step completes. -/
theorem step_next (s : State) : ∃ t, step s = .next t := by
  cases hp : s.port with
  | nil => exact ⟨s, step_of_no_port hp⟩
  | cons e es =>
    rw [step_of_port hp]
    exact perform_next e _

/-- A run over the first events of the port performs them, leaves the rest pending, and keeps whatever each of
their steps keeps. -/
theorem run_events {P : State → Prop} (es rest : List Event) {s : State}
    (hkeep : ∀ e ∈ es, ∀ u v tail, u.port = e :: tail → step u = .next v → P u → P v)
    (hp : s.port = es ++ rest) (hs : P s) :
    ∃ t : State, Host.Core.run Sys2Proof.core es.length s = .next t ∧ t.port = rest ∧ P t := by
  induction es generalizing s with
  | nil => exact ⟨s, run_zero s, hp, hs⟩
  | cons e es ih =>
    obtain ⟨u, hu, hup, -⟩ := accessesArePerformedInOrder s e (es ++ rest) hp
    obtain ⟨t, ht, htp, hPt⟩ :=
      ih (fun x hx => hkeep x (.tail e hx)) hup (hkeep e (.head es) s u _ hp hu hs)
    exact ⟨t, (run_succ _ hu).trans ht, htp, hPt⟩

/-- A run over the first events of the port completes and leaves the rest pending. -/
theorem run_port (es rest : List Event) {s : State} (hp : s.port = es ++ rest) :
    ∃ t : State, Host.Core.run Sys2Proof.core es.length s = .next t ∧ t.port = rest := by
  obtain ⟨t, ht, htp, -⟩ := run_events (P := fun _ => True) es rest (by simp) hp trivial
  exact ⟨t, ht, htp⟩

/-- Settles O9: each step and each command completes, and a run over the whole port drains it. -/
theorem everyAccessCompletes : Obligations.EveryAccessCompletes :=
  ⟨step_next, exec_next, fun s => run_port s.port [] (List.append_nil _).symm⟩

/-- Settles O11: a step performs the oldest pending event, and there is none. -/
theorem idleCoreStays : Obligations.IdleCoreStays := fun _ hp => step_of_no_port hp

/-! ### A final check of ERRCODE -/

theorem commandError_ne_code_none (w : Word) (m : Mode) : commandError w m ≠ some .none := by
  unfold commandError
  split_ifs <;> simp

/-- What an event raises is an error, not the code 0 (60_exceptions.md R191). -/
theorem raisedError_ne_code_none (e : Event) (s : State) : raisedError e s ≠ some .none := by
  match e with
  | .reset => simp [raisedError]
  | .access ⟨_, _, _, .read⟩ =>
    simp only [raisedError]
    split_ifs <;> simp
  | .access ⟨_, _, _, .write v⟩ =>
    simp only [raisedError]
    split_ifs
    · simp
    · exact commandError_ne_code_none v s.mode
    · simp
    · simp

theorem recordError_errcode_ne_none {c : ErrCode} (hc : c ≠ .none) (s : State) :
    (s.recordError c).errcode ≠ .none := by
  rw [recordError_errcode]
  split
  · exact hc
  · assumption

/-- An event that raises an error leaves ERRCODE set, whatever it was. -/
theorem perform_errcode_ne_none {e : Event} {s t : State} {c : ErrCode} (hr : raisedError e s = some c)
    (h : perform e s = .next t) : t.errcode ≠ .none := by
  have hc : c ≠ .none := by
    rintro rfl
    exact raisedError_ne_code_none e s hr
  rcases perform_of_raisedError hr with hp | ⟨_, _, _, -, hp⟩ <;> rw [hp] at h <;> cases h <;>
    exact recordError_errcode_ne_none hc s

/-- An error is still recorded at the end of a run without CLRERR and reset. -/
theorem run_errcode_ne_none {es rest : List Event} {s t : State} (hr : ∀ e ∈ es, rearms e = false)
    (hp : s.port = es ++ rest) (herr : s.errcode ≠ .none)
    (h : Host.Core.run Sys2Proof.core es.length s = .next t) : t.errcode ≠ .none := by
  obtain ⟨t', ht', -, herr'⟩ := run_events (P := fun u => u.errcode ≠ .none) es rest
    (fun e he u v tail hup huv hu => by rwa [step_errcode_of_error (hr e he) hu hup huv]) hp herr
  rw [h] at ht'
  cases ht'
  exact herr'

/-- Settles O21: an error raised anywhere in the run would be recorded and stay until its end. -/
theorem finalErrorCheckIsEnough : Obligations.FinalErrorCheckIsEnough := by
  intro s pre e post t hp hr h h0
  obtain ⟨u, hu, hup⟩ := run_port pre (e :: post) hp
  refine ⟨u, hu, hup, Option.eq_none_iff_forall_ne_some.2 fun c hc => ?_⟩
  obtain ⟨v, hv⟩ := perform_next e (u.setPort post)
  have herr : v.errcode ≠ .none := perform_errcode_ne_none (s := u.setPort post) hc hv
  have hrest : Host.Core.run Sys2Proof.core post.length v = .next t := by
    rw [Nat.add_assoc, run_add _ _ hu, Nat.add_comm, run_succ _ ((step_of_port hup).trans hv)] at h
    exact h
  have hvp : v.port = post ++ [] := by rw [perform_port hv, setPort_port, List.append_nil]
  exact run_errcode_ne_none (fun x hx => hr x (by simp [hx])) hvp herr hrest h0

/-! ### Reset -/

/-- The reset input gives every host-readable register the value it has in the reset state. -/
theorem regValue_hardReset (s : State) (r : Reg) : regValue s.hardReset r = regValue State.reset r := by
  cases r <;> rfl

/-- A bound core stays bound under every access: MODE stays or an INIT sets it. -/
theorem mode_ne_none_of_access {s t : State} {a : Access} {es : List Event} (hp : s.port = .access a :: es)
    (h : step s = .next t) (hm : s.mode ≠ .none) : t.mode ≠ .none := by
  obtain ⟨-, h32, h128, hkeep⟩ := modeChangesOnlyByInit s _ es t hp h
  by_cases hr : restarts (.access a) = true
  · rcases (restarts_iff _).1 hr with he | hi | hi
    · cases he
    · simp [h32 hi]
    · simp [h128 hi]
  · rwa [hkeep (Bool.eq_false_iff.2 hr)]

theorem exec_init {i : Instr} (hi : i = .init32 ∨ i = .init128 ∨ i = .init64) (s : State) :
    ∃ m x1 x2, exec i s = .next (s.startStream m x1 x2) := by
  rcases hi with rfl | rfl | rfl
  · exact ⟨_, _, _, exec_init32 s⟩
  · exact ⟨_, _, _, exec_init128 s⟩
  · exact ⟨_, _, _, exec_init64 s⟩

/-- Settles O2: the reset values are those of the reset state, and each INIT only starts a stream. -/
theorem onlyTheResetInputResets : Obligations.OnlyTheResetInputResets := by
  refine ⟨fun s es hp => ⟨_, step_of_port hp, ?_⟩, fun s a es t hp h hm => mode_ne_none_of_access hp h hm,
    fun s i hi => ?_⟩
  · rw [regValue_hardReset, regValue_hardReset]
    exact resetStateHoldsTheResetValues
  · obtain ⟨m, x1, x2, he⟩ := exec_init hi s
    exact ⟨_, he, by simp [State.sameDigest, State.sameOperands]⟩

end Sys2Proof.Machine
end
